-- ==== Sys2Proof/Word.lean ====
section
/-! DEFINITION. The word types of the core (R20, R30, R101): bytes, 16-bit words, nibbles, 12-bit addresses. -/

namespace Sys2Proof

/-- A memory byte, a general register, a timer, or an immediate `kk` (R14, R30). -/
abbrev Byte := BitVec 8

/-- An instruction word, `I`, `PC`, or a call-stack entry (R30, R100). -/
abbrev Word := BitVec 16

/-- A 4-bit field of an instruction word: a register index or the sprite height `n` (R101). -/
abbrev Nibble := BitVec 4

/-- The 12-bit address field `nnn` of an instruction word (R101). -/
abbrev Addr12 := BitVec 12

end Sys2Proof
end

