-- ==== Sys2Proof/Config.lean ====
section
/-! DEFINITION. What the implementation fixes (R10): the sizes, the open parameters and their types, the
per-frame host inputs (R12), and the two free inputs the spec puts under no law. -/

namespace Sys2Proof

/-- MEM_SIZE (R10, R70). -/
def Config.memSize : Nat := 4096

/-- PROG_BASE: where the program image is loaded and where it is entered (R10, R71). -/
def Config.progBase : Nat := 0x200

/-- MAX_ROM (R10, R345): the longest program image. -/
def Config.maxRom : Nat := Config.memSize - Config.progBase

/-- STACK_DEPTH (R10, R38). -/
def Config.stackDepth : Nat := 16

/-- FAMILY0_MATCH (R10, R104): whether family 0 looks at bits 11:8 of the word. -/
inductive Family0Match where
  /-- Only the low byte is compared, so 0x01E0 is CLS (the default). -/
  | lowByte
  /-- Only 0x00E0 and 0x00EE are selected. -/
  | exactWord
deriving DecidableEq, Repr

/-- KEY_INDEX_POLICY (R10, R260): what Ex9E and ExA1 do with a register above 0xF. -/
inductive KeyIndexPolicy where
  /-- The low nibble of the register names the key (the default). -/
  | lowNibble
  /-- A register above 0xF raises KEY_INDEX_RANGE. -/
  | fault
deriving DecidableEq, Repr

/-- The parameters the spec leaves open, as "a model takes the value as an argument" (R10). `ipf` is the
budget of a running frame (R290), `font` the 80 glyph bytes (R343). -/
structure Params where
  family0  : Family0Match
  keyIndex : KeyIndexPolicy
  ipf      : Nat
  font     : Vector Byte 80
deriving DecidableEq, Repr

/-- What the host presents at one `frame_start` (R12): bit `k` of `keysIn` is the level of key `k`. -/
structure HostInput where
  keysIn      : BitVec 16
  pauseToggle : Bool
  exitReq     : Bool
deriving DecidableEq, Repr, Inhabited

/-- FREE VALUE. The host's input at the frame numbered `n`, wherever the state does not already hold it
(R12, R281, R282; log entry 2). It has no body: nothing can be proved of its value. -/
opaque Config.hostInput (n : Nat) : HostInput

/-- FREE VALUE. The `rnd` input of the draw numbered `n`, wherever the state does not already hold it:
"any 8-bit value; no law, no seed, no period" (R182; log entry 3). It has no body. -/
opaque Config.rnd (n : Nat) : Byte

end Sys2Proof
end

