-- ==== Sys2Proof/Machine/Defaults.lean ====
section
/-! DEFINITION. The default value of every parameter of R10: "the default is the value this hardware takes". -/

namespace Sys2Proof

/-- The default FONT (R343), digit `d` at `5 * d`; the glyph bytes are the spec's own "general knowledge". -/
def defaultFont : Vector Byte 80 :=
  (#v[0xF0, 0x90, 0x90, 0x90, 0xF0,   0x20, 0x60, 0x20, 0x20, 0x70,
     0xF0, 0x10, 0xF0, 0x80, 0xF0,   0xF0, 0x10, 0xF0, 0x10, 0xF0] : Vector Byte 20) ++
  (#v[0x90, 0x90, 0xF0, 0x10, 0x10,   0xF0, 0x80, 0xF0, 0x10, 0xF0,
     0xF0, 0x80, 0xF0, 0x90, 0xF0,   0xF0, 0x10, 0x20, 0x40, 0x40] : Vector Byte 20) ++
  (#v[0xF0, 0x90, 0xF0, 0x90, 0xF0,   0xF0, 0x90, 0xF0, 0x10, 0xF0,
     0xF0, 0x90, 0xF0, 0x90, 0x90,   0xE0, 0x90, 0xE0, 0x90, 0xE0] : Vector Byte 20) ++
  (#v[0xF0, 0x80, 0x80, 0x80, 0xF0,   0xE0, 0x90, 0x90, 0x90, 0xE0,
     0xF0, 0x80, 0xF0, 0x80, 0xF0,   0xF0, 0x80, 0xF0, 0x80, 0x80] : Vector Byte 20)

/-- IPS and FPS (R10, R290). -/
def defaultIps : Nat := 700

/-- FPS: host-side only, but for the budget it gives (R290, R292). -/
def defaultFps : Nat := 60

/-- IPF = floor(IPS / FPS) = 11 by default; FAMILY0_MATCH = LOW_BYTE; KEY_INDEX_POLICY = LOW_NIBBLE (R10). -/
def Params.default : Params where
  family0  := .lowByte
  keyIndex := .lowNibble
  ipf      := defaultIps / defaultFps
  font     := defaultFont

end Sys2Proof
end

