-- ==== Sys2Proof/Syntax.lean ====
section
/-! DEFINITION. The instructions: one constructor per row of the opcode map (R111). Every field has exactly
the width R101 gives it; the bits an instruction ignores (the low nibble of families 5 and 9, `y` of the
shifts) are no operands and are not kept. -/

namespace Sys2Proof

/-- The 34 instructions of R111, in the table's order. -/
inductive Instr where
  /-- 00E0 CLS (R211). -/
  | cls
  /-- 00EE RET (R140). -/
  | ret
  /-- 1nnn JP nnn (R141). -/
  | jp (nnn : Addr12)
  /-- 2nnn CALL nnn (R142). -/
  | call (nnn : Addr12)
  /-- 3xkk SE Vx, kk (R143). -/
  | seImm (x : Nibble) (kk : Byte)
  /-- 4xkk SNE Vx, kk (R144). -/
  | sneImm (x : Nibble) (kk : Byte)
  /-- 5xy0 SE Vx, Vy (R145); the word's low nibble is ignored (R108). -/
  | seReg (x y : Nibble)
  /-- 6xkk LD Vx, kk (R171). -/
  | ldImm (x : Nibble) (kk : Byte)
  /-- 7xkk ADD Vx, kk (R172). -/
  | addImm (x : Nibble) (kk : Byte)
  /-- 8xy0 LD Vx, Vy (R173). -/
  | ldReg (x y : Nibble)
  /-- 8xy1 OR Vx, Vy (R174). -/
  | orReg (x y : Nibble)
  /-- 8xy2 AND Vx, Vy (R175). -/
  | andReg (x y : Nibble)
  /-- 8xy3 XOR Vx, Vy (R176). -/
  | xorReg (x y : Nibble)
  /-- 8xy4 ADD Vx, Vy (R177). -/
  | addReg (x y : Nibble)
  /-- 8xy5 SUB Vx, Vy (R178). -/
  | subReg (x y : Nibble)
  /-- 8xy6 SHR Vx (R179); `y` is ignored. -/
  | shr (x : Nibble)
  /-- 8xy7 SUBN Vx, Vy (R180). -/
  | subnReg (x y : Nibble)
  /-- 8xyE SHL Vx (R181); `y` is ignored. -/
  | shl (x : Nibble)
  /-- 9xy0 SNE Vx, Vy (R146); the word's low nibble is ignored (R108). -/
  | sneReg (x y : Nibble)
  /-- Annn LD I, nnn (R240). -/
  | ldI (nnn : Addr12)
  /-- Bnnn JP V0, nnn (R147). -/
  | jpV0 (nnn : Addr12)
  /-- Cxkk RND Vx, kk (R182). -/
  | rnd (x : Nibble) (kk : Byte)
  /-- Dxyn DRW Vx, Vy, n (R212). -/
  | drw (x y n : Nibble)
  /-- Ex9E SKP Vx (R261). -/
  | skp (x : Nibble)
  /-- ExA1 SKNP Vx (R262). -/
  | sknp (x : Nibble)
  /-- Fx07 LD Vx, DT (R230). -/
  | ldVxDt (x : Nibble)
  /-- Fx0A LD Vx, K (R263). -/
  | ldVxK (x : Nibble)
  /-- Fx15 LD DT, Vx (R231). -/
  | ldDtVx (x : Nibble)
  /-- Fx18 LD ST, Vx (R232). -/
  | ldStVx (x : Nibble)
  /-- Fx1E ADD I, Vx (R241). -/
  | addIVx (x : Nibble)
  /-- Fx29 LD F, Vx (R245). -/
  | ldFVx (x : Nibble)
  /-- Fx33 LD B, Vx (R246). -/
  | ldBVx (x : Nibble)
  /-- Fx55 LD [I], Vx (R247). -/
  | ldMemVx (x : Nibble)
  /-- Fx65 LD Vx, [I] (R248). -/
  | ldVxMem (x : Nibble)
deriving DecidableEq, Repr

end Sys2Proof
end

