-- ==== Sys2Proof/Machine/State.lean ====
section
/-! DEFINITION. The state as plain data: everything R30 lists, the output signals of R12, and the model's own
fields (where in a frame the machine is, the inputs that are still to come, the parameters). -/

namespace Sys2Proof.Machine

/-- RUN (R45, R291). -/
inductive RunState where
  | running
  | paused
  | stopped
deriving DecidableEq, Repr

/-- KW, the key-wait latch (R42). -/
inductive KeyWait where
  | idle
  | awaitPress
  | awaitRelease
deriving DecidableEq, Repr

/-- The fatal fault codes 1 to 4 (R310), in the order of their numbers. -/
inductive FaultCode where
  /-- Code 1: 2nnn with 16 return addresses live. -/
  | stackOverflow
  /-- Code 2: 00EE with no return address live. -/
  | stackUnderflow
  /-- Code 3: a slot that begins at 0x0FFF or beyond. -/
  | fetchOutOfRange
  /-- Code 4: Ex9E or ExA1 with a register above 0xF, under KEY_INDEX_POLICY = FAULT only. -/
  | keyIndexRange
deriving DecidableEq, Repr

/-- What FAULT holds once it is set: the code and the address of the faulting instruction (R46). -/
structure FaultRecord where
  code : FaultCode
  addr : Word
deriving DecidableEq, Repr

/-- The "logged only" conditions (R315). -/
inductive DiagEvent where
  | drawReadOob
  | bcdWriteOob
  | storeOob
  | loadOob
deriving DecidableEq, Repr

/-- MODEL'S OWN (log entry 1): where the frame step of R280 stands. -/
inductive Phase where
  /-- No frame is under way: the next step begins one. -/
  | between
  /-- A running frame with `left` slots of its budget still to run; with none left, the next step ends it. -/
  | slots (left : Nat)
deriving DecidableEq, Repr

/-- DISP_H rows of DISP_W pixels, row 0 at the top and column 0 at the left; `true` is lit (R43). -/
abbrev Display := Vector (Vector Bool 64) 32

/-- The blank display. -/
def Display.blank : Display := Vector.replicate 32 (Vector.replicate 64 false)

/-- The state of the core. -/
structure State where
  /-- The bytes that differ from what the boot left (R70; read through `Memory.read`). -/
  mem      : List Host.Cell
  /-- V0 to VF (R32). -/
  v        : Vector Byte 16
  /-- The address register I (R35). -/
  i        : Word
  /-- The program counter (R36). -/
  pc       : Word
  /-- The call-stack entries; those below `sp` are live (R38). -/
  stack    : Vector Word 16
  /-- The call-stack depth SP, 0 to 16 (R38). -/
  sp       : Fin 17
  /-- The delay timer DT (R40). -/
  dt       : Byte
  /-- The sound timer ST (R40). -/
  st       : Byte
  /-- The keypad levels, `true` is pressed (R41). -/
  key      : Vector Bool 16
  /-- The key-wait latch KW (R42). -/
  kw       : KeyWait
  /-- The display buffer (R43). -/
  disp     : Display
  /-- The draw-requested flag DRAW (R44). -/
  draw     : Bool
  /-- The scheduler state RUN, and the output `run_state` (R45, R12). -/
  run      : RunState
  /-- The fault record FAULT, and the output `fault` (R46, R12). -/
  fault    : Option FaultRecord
  /-- OUTPUT `draw_req` as last driven (R12, R286). -/
  drawReq  : Bool
  /-- OUTPUT `sound_on` as last driven (R12, R287). -/
  soundOn  : Bool
  /-- OUTPUT `diag`: the events of the frame, oldest first (R12, R315). -/
  diag     : List DiagEvent
  /-- MODEL'S OWN: where in the frame step the machine is. -/
  phase    : Phase
  /-- MODEL'S OWN: host inputs of the frames to come, soonest first; past its end they are free (log entry 2). -/
  hostIn   : List HostInput
  /-- MODEL'S OWN: how many frames have begun; numbers the free host inputs. -/
  frameNo  : Nat
  /-- MODEL'S OWN: `rnd` inputs to come, soonest first; past its end they are free (log entry 3). -/
  rndIn    : List Byte
  /-- MODEL'S OWN: how many random bytes were drawn; numbers the free draws. -/
  drawNo   : Nat
  /-- The parameters of R10, which no step changes (log entry 4). -/
  params   : Params
deriving DecidableEq, Repr

/-- The reasons a step can stop the machine for want of a next state: NONE, on this hardware. Each of the four
fatal faults of R310 is a next state in which `fault` holds the record and `run` is `stopped` (R311), and a
stopped machine still takes its (empty) frames (R289). SAFE: nothing raises one. -/
inductive Fault where
deriving DecidableEq, Repr

/-- The reasons a step can give no meaning. -/
inductive Refusal where
  /-- An arm of `exec` that has no meaning yet; no arm of this model raises it. SAFE: the machine stops. -/
  | notModelled (mnemonic : String)
deriving DecidableEq, Repr

/-- The boot state of R48 under the parameters `p`, before any program byte is loaded. -/
def State.bootWith (p : Params) : State where
  mem     := []
  v       := Vector.replicate 16 0x00
  i       := 0x0000
  pc      := 0x0200
  stack   := Vector.replicate 16 0x0000
  sp      := 0
  dt      := 0x00
  st      := 0x00
  key     := Vector.replicate 16 false
  kw      := .idle
  disp    := Display.blank
  draw    := false
  run     := .running
  fault   := none
  drawReq := false
  soundOn := false
  diag    := []
  phase   := .between
  hostIn  := []
  frameNo := 0
  rndIn   := []
  drawNo  := 0
  params  := p

/-- The machine right after boot (R48, R340) under the default parameters, with the program image of length 0
that R345 accepts: memory holds the font and zeros. -/
def State.reset : State := State.bootWith Params.default

end Sys2Proof.Machine
end

