-- ==== Sys2Proof/Machine/Ops.lean ====
section
/-! DEFINITION. The named operations over memory, the registers, the call stack, the display and the inputs,
and fault entry (R311). Where a rule's pseudocode writes one of its primitives (R15 to R17), the meanings
call the operation here. -/

namespace Sys2Proof.Machine

/-! ## Memory (R16, R70 to R77) -/

/-- What an address that memory does not list reads as: the byte the boot left there. That is the FONT below
0x050 and 0x00 above (R48, R341, R342). -/
def Memory.bootByte (font : Vector Byte 80) (a : Nat) : Byte := font[a]?.getD 0x00

/-- The byte a list of cells holds for an address. -/
def Memory.lookup : List Host.Cell → Nat → Option Byte
  | [], _ => none
  | (k, b) :: rest, a => if k = a then some b else Memory.lookup rest a

/-- `MemRead(a, 1)` (R16). -/
def Memory.read (font : Vector Byte 80) (m : List Host.Cell) (a : Nat) : Byte :=
  (Memory.lookup m a).getD (Memory.bootByte font a)

/-- The cells without the address `a`. -/
def Memory.erase : List Host.Cell → Nat → List Host.Cell
  | [], _ => []
  | (k, b) :: rest, a => if k = a then Memory.erase rest a else (k, b) :: Memory.erase rest a

/-- The cells with the byte `b` at the address `a`, kept in rising order. -/
def Memory.insert : List Host.Cell → Nat → Byte → List Host.Cell
  | [], a, b => [(a, b)]
  | (k, c) :: rest, a, b =>
    if k < a then (k, c) :: Memory.insert rest a b
    else if k = a then (a, b) :: rest
    else (a, b) :: (k, c) :: rest

/-- `MemWrite(a, 1, b)` (R16), in canonical form: writing what the boot left removes the entry. -/
def Memory.write (font : Vector Byte 80) (m : List Host.Cell) (a : Nat) (b : Byte) : List Host.Cell :=
  if b = Memory.bootByte font a then Memory.erase m a else Memory.insert m a b

/-- The addresses of the cells rise strictly from above `lo`, lie below MEM_SIZE, and no cell holds what its
address reads as unlisted. -/
def Memory.wfFrom (font : Vector Byte 80) : Nat → List Host.Cell → Bool
  | _, [] => true
  | lo, (k, b) :: rest =>
    decide (lo ≤ k) && decide (k < Config.memSize) && decide (b ≠ Memory.bootByte font k) &&
      Memory.wfFrom font (k + 1) rest

/-- Memory is in its canonical form. -/
def Memory.wf (font : Vector Byte 80) (m : List Host.Cell) : Bool := Memory.wfFrom font 0 m

/-- The byte at an address, as the machine sees it now. -/
def State.readByte (s : State) (a : Nat) : Byte := Memory.read s.params.font s.mem a

/-- Store a byte. -/
def State.writeByte (s : State) (a : Nat) (b : Byte) : State :=
  { s with mem := Memory.write s.params.font s.mem a b }

/-- The address names a byte of memory (R11, R75: a natural, never reduced). -/
abbrev inMemory (a : Nat) : Prop := a < Config.memSize

/-! ## Registers (R32 to R38) -/

/-- `V[x]`. -/
def State.readV (s : State) (x : Nibble) : Byte := s.v[x.toNat]'x.isLt

/-- `V[x] <- b`. -/
def State.setV (s : State) (x : Nibble) (b : Byte) : State := { s with v := s.v.set x.toNat b x.isLt }

/-- `I <- w`. -/
def State.setI (s : State) (w : Word) : State := { s with i := w }

/-- `PC <- w`. -/
def State.setPc (s : State) (w : Word) : State := { s with pc := w }

/-- The pre-increment every slot makes before dispatch (R120). -/
def State.advance (s : State) : State := s.setPc (s.pc + 2)

/-- A skip whose predicate holds passes over one more word (R148). -/
def State.skipIf (s : State) (taken : Bool) : State := if taken then s.setPc (s.pc + 2) else s

/-- "Rewind": back to the instruction's own address, so that the same word is fetched again (R263). -/
def State.rewind (s : State) : State := s.setPc (s.pc - 2)

/-- `stack[SP] <- PC; SP <- SP + 1`, for a depth below 16 (R38, R142). -/
def State.pushPc (s : State) (room : s.sp.val < 16) : State :=
  { s with stack := s.stack.set s.sp.val s.pc room, sp := ⟨s.sp.val + 1, by omega⟩ }

/-- `SP <- SP - 1; PC <- stack[SP]`, for a depth above 0 (R38, R140): the entry stays in place, no longer live. -/
def State.popPc (s : State) (_live : s.sp.val ≠ 0) : State :=
  { s with sp := ⟨s.sp.val - 1, by omega⟩, pc := s.stack[s.sp.val - 1]'(by omega) }

/-! ## Keypad, display, diagnostics, random source -/

/-- `key[k]` (R41). -/
def State.keyDown (s : State) (k : Nibble) : Bool := s.key[k.toNat]'k.isLt

/-- `KW <- w` (R42). -/
def State.setKw (s : State) (w : KeyWait) : State := { s with kw := w }

/-- `disp[row][col]`; a place outside the grid reads unlit, and no rule reads one. -/
def Display.pixel (d : Display) (row col : Nat) : Bool := (d[row]?.bind (fun l => l[col]?)).getD false

/-- `disp[row][col] <- b`; a place outside the grid is left alone, and no rule writes one. -/
def Display.setPixel (d : Display) (row col : Nat) (b : Bool) : Display :=
  match d[row]? with
  | some l => d.setIfInBounds row (l.setIfInBounds col b)
  | none => d

/-- A new picture, and `DRAW <- 1` (R44): every CLS and every DRW requests a redraw. -/
def State.showDisplay (s : State) (d : Display) : State := { s with disp := d, draw := true }

/-- `emit Diag(e)` (R17, R315). -/
def State.emit (s : State) (e : DiagEvent) : State := { s with diag := s.diag ++ [e] }

/-- The byte the next `draw RND` gives (R17, R182): the input at hand, else a free value. -/
def State.nextRnd (s : State) : Byte :=
  match s.rndIn with
  | b :: _ => b
  | [] => Config.rnd s.drawNo

/-- The state after one `draw RND`. -/
def State.afterRnd (s : State) : State := { s with rndIn := s.rndIn.tail, drawNo := s.drawNo + 1 }

/-! ## Fault entry (R311)

There is no return from a fault (R313), so there is no operation beside it. -/

/-- Take the fatal fault `code` of a slot that began at `a`: PC is `a`, FAULT records both, RUN is STOPPED
(R311), and the frame ends at once with `draw_req` and `sound_on` 0 (R284). Nothing else changes. -/
def State.raiseFaultAt (s : State) (code : FaultCode) (a : Word) : State :=
  { s with pc := a, fault := some ⟨code, a⟩, run := .stopped, phase := .between, drawReq := false, soundOn := false }

/-- `raise Fault(code)` in a meaning, where PC already holds the instruction's address plus 2 (R18). -/
def State.raiseFault (s : State) (code : FaultCode) : State := s.raiseFaultAt code (s.pc - 2)

end Sys2Proof.Machine
end

