-- ==== Sys2Proof/Machine/Operands.lean ====
section
/-! DEFINITION. The operand forms: widened immediates and registers, the key index, the pressed keys, the
decimal digits and the glyph address. All are unsigned (R14, R102). -/

namespace Sys2Proof.Machine

/-- `zext_16(nnn)` (R102). -/
def addrOperand (nnn : Addr12) : Word := nnn.setWidth 16

/-- `zext_16(V[x])`. -/
def State.readVWide (s : State) (x : Nibble) : Word := (s.readV x).setWidth 16

/-- The target of Bnnn: `zext_16(nnn) + zext_16(V[0])` (R147). -/
def State.offsetTarget (s : State) (nnn : Addr12) : Word := addrOperand nnn + s.readVWide 0x0

/-- The address of the glyph of `v`: the whole register times 5 (R245). -/
def glyphAddr (v : Word) : Word := v * 5

/-- `keyidx(v)` (R260): `none` where the policy FAULT raises KEY_INDEX_RANGE. -/
def keyIndex (policy : KeyIndexPolicy) (v : Byte) : Option Nibble :=
  match policy with
  | .lowNibble => some (v.extractLsb' 0 4)
  | .fault => if v.toNat > 0xF then none else some (v.extractLsb' 0 4)

/-- The least pressed key among the `count` keys from `k` on. -/
def lowestPressedFrom (key : Vector Bool 16) : Nat → Nat → Option Nat
  | 0, _ => none
  | count + 1, k => if key[k]?.getD false then some k else lowestPressedFrom key count (k + 1)

/-- "Lowest key index wins": the least `k` with `key[k] = 1`, or none if every key is released (R263). -/
def lowestPressed (key : Vector Bool 16) : Option Nat := lowestPressedFrom key 16 0

/-- `v / 100`, the hundreds digit (R246). -/
def hundreds (v : Byte) : Byte := BitVec.ofNat 8 (v.toNat / 100)

/-- `(v / 10) mod 10`, the tens digit (R246). -/
def tens (v : Byte) : Byte := BitVec.ofNat 8 (v.toNat / 10 % 10)

/-- `v mod 10`, the units digit (R246). -/
def units (v : Byte) : Byte := BitVec.ofNat 8 (v.toNat % 10)

/-- The sprite bit at column offset `c` of a row's byte: bit 7 is the leftmost (R210). -/
def spriteBit (b : Byte) (c : Nat) : Bool := b.getLsbD (7 - c)

end Sys2Proof.Machine
end

