-- ==== Sys2Proof/Machine/ControlFlow.lean ====
section
/-! DEFINITION. The control-flow instructions (R140 to R148). As R18 fixes for every meaning, the state it is
given is the one after the fetch and the pre-increment: PC holds the instruction's address plus 2. -/

namespace Sys2Proof.Machine

/-- The outcome of a step of this machine. -/
abbrev Result := Host.Outcome State Fault Refusal

/-- 00EE: return, or STACK_UNDERFLOW (R140). -/
def execRet (s : State) : Result :=
  if live : s.sp.val ≠ 0 then .next (s.popPc live) else .next (s.raiseFault .stackUnderflow)

/-- 1nnn: jump (R141). -/
def execJp (nnn : Addr12) (s : State) : Result := .next (s.setPc (addrOperand nnn))

/-- 2nnn: push the return address and jump, or STACK_OVERFLOW (R142). -/
def execCall (nnn : Addr12) (s : State) : Result :=
  if room : s.sp.val < 16 then .next ((s.pushPc room).setPc (addrOperand nnn))
  else .next (s.raiseFault .stackOverflow)

/-- 3xkk: skip if Vx is kk (R143). -/
def execSeImm (x : Nibble) (kk : Byte) (s : State) : Result := .next (s.skipIf (s.readV x == kk))

/-- 4xkk: skip if Vx is not kk (R144). -/
def execSneImm (x : Nibble) (kk : Byte) (s : State) : Result := .next (s.skipIf (s.readV x != kk))

/-- 5xy0: skip if Vx and Vy are equal (R145). -/
def execSeReg (x y : Nibble) (s : State) : Result := .next (s.skipIf (s.readV x == s.readV y))

/-- 9xy0: skip if Vx and Vy differ (R146). -/
def execSneReg (x y : Nibble) (s : State) : Result := .next (s.skipIf (s.readV x != s.readV y))

/-- Bnnn: jump to nnn + V0 (R147). -/
def execJpV0 (nnn : Addr12) (s : State) : Result := .next (s.setPc (s.offsetTarget nnn))

/-- An unmapped word: the cycle alone, which has already advanced PC; nothing else changes (R110, R184). -/
def execUnmapped (s : State) : Result := .next s

end Sys2Proof.Machine
end

