-- ==== Sys2Proof/Machine/Flags.lean ====
section
/-! DEFINITION. The flag computations of family 8 (R177 to R181, R183), and the order in which a result and
its flag are written (R170). -/

namespace Sys2Proof.Machine

/-- A flag as the byte VF receives. -/
def flagByte (b : Bool) : Byte := if b then 1 else 0

/-- Carry out: the 9-bit sum exceeds 255 (R177). -/
def carryFlag (a b : Byte) : Byte := flagByte (decide (a.toNat + b.toNat > 255))

/-- No borrow: the minuend is at least the subtrahend (R178, R180). -/
def noBorrowFlag (minuend subtrahend : Byte) : Byte := flagByte (decide (minuend.toNat ≥ subtrahend.toNat))

/-- The bit a right shift moves out (R179). -/
def lowBitFlag (a : Byte) : Byte := flagByte (a.getLsbD 0)

/-- The bit a left shift moves out (R181). -/
def highBitFlag (a : Byte) : Byte := flagByte (a.getLsbD 7)

/-- `V[x] <- r`, then `V[0xF] <- f`: VF is written last, so it keeps the flag when `x = 0xF` (R170). -/
def State.setResultFlag (s : State) (x : Nibble) (r f : Byte) : State := (s.setV x r).setV 0xF f

end Sys2Proof.Machine
end

