-- ==== Sys2Proof/Machine/Alu.lean ====
section
/-! DEFINITION. Register arithmetic and logic (R170 to R184). -/

namespace Sys2Proof.Machine

/-- 6xkk: load immediate (R171). -/
def execLdImm (x : Nibble) (kk : Byte) (s : State) : Result := .next (s.setV x kk)

/-- 7xkk: add immediate, no flag (R172). -/
def execAddImm (x : Nibble) (kk : Byte) (s : State) : Result := .next (s.setV x (s.readV x + kk))

/-- 8xy0: assign (R173). -/
def execLdReg (x y : Nibble) (s : State) : Result := .next (s.setV x (s.readV y))

/-- 8xy1: OR, no flag (R174). -/
def execOrReg (x y : Nibble) (s : State) : Result := .next (s.setV x (s.readV x ||| s.readV y))

/-- 8xy2: AND, no flag (R175). -/
def execAndReg (x y : Nibble) (s : State) : Result := .next (s.setV x (s.readV x &&& s.readV y))

/-- 8xy3: XOR, no flag (R176). -/
def execXorReg (x y : Nibble) (s : State) : Result := .next (s.setV x (s.readV x ^^^ s.readV y))

/-- 8xy4: add with carry out (R177). -/
def execAddReg (x y : Nibble) (s : State) : Result :=
  .next (s.setResultFlag x (s.readV x + s.readV y) (carryFlag (s.readV x) (s.readV y)))

/-- 8xy5: Vx - Vy with the no-borrow flag (R178). -/
def execSubReg (x y : Nibble) (s : State) : Result :=
  .next (s.setResultFlag x (s.readV x - s.readV y) (noBorrowFlag (s.readV x) (s.readV y)))

/-- 8xy6: shift Vx right by one in place (R179). -/
def execShr (x : Nibble) (s : State) : Result :=
  .next (s.setResultFlag x (s.readV x >>> 1) (lowBitFlag (s.readV x)))

/-- 8xy7: Vy - Vx with the no-borrow flag (R180). -/
def execSubnReg (x y : Nibble) (s : State) : Result :=
  .next (s.setResultFlag x (s.readV y - s.readV x) (noBorrowFlag (s.readV y) (s.readV x)))

/-- 8xyE: shift Vx left by one in place (R181). -/
def execShl (x : Nibble) (s : State) : Result :=
  .next (s.setResultFlag x (s.readV x <<< 1) (highBitFlag (s.readV x)))

/-- Cxkk: a random byte AND kk (R182). -/
def execRnd (x : Nibble) (kk : Byte) (s : State) : Result := .next (s.afterRnd.setV x (s.nextRnd &&& kk))

end Sys2Proof.Machine
end

