-- ==== Sys2Proof/Machine/Drawing.lean ====
section
/-! DEFINITION. The display instructions (R210 to R213). -/

namespace Sys2Proof.Machine

/-- What the row and column walk of a draw carries: the picture, whether a lit pixel was cleared, and whether
a row's address left memory. -/
structure Drawing where
  disp        : Display
  collision   : Bool
  outOfMemory : Bool
deriving DecidableEq, Repr

/-- One pixel of the walk (R212): clipped at column 64, flipped under a set sprite bit, a collision when that
clears it. -/
def drawPixel (b : Byte) (row ox c : Nat) (d : Drawing) : Drawing :=
  if 64 ≤ ox + c then d
  else if spriteBit b c then
    if d.disp.pixel row (ox + c) then
      { d with disp := d.disp.setPixel row (ox + c) false, collision := true }
    else { d with disp := d.disp.setPixel row (ox + c) true }
  else d

/-- The `count` pixels of a row from column offset `c` on. -/
def drawPixels (b : Byte) (row ox : Nat) : Nat → Nat → Drawing → Drawing
  | 0, _, d => d
  | count + 1, c, d => drawPixels b row ox count (c + 1) (drawPixel b row ox c d)

/-- One sprite row on display row `row`: clipped at row 32, not wrapped (R212). -/
def drawRow (b : Byte) (row ox : Nat) (d : Drawing) : Drawing :=
  if 32 ≤ row then d else drawPixels b row ox 8 0 d

/-- The `count` sprite rows from row `r` on, read from `base + r` by `read` (R212): an address outside memory
ends the draw, and is tested before the vertical clip (decision D25). -/
def drawRows (read : Nat → Byte) (base ox oy : Nat) : Nat → Nat → Drawing → Drawing
  | 0, _, d => d
  | count + 1, r, d =>
    if inMemory (base + r) then
      drawRows read base ox oy count (r + 1) (drawRow (read (base + r)) (oy + r) ox d)
    else { d with outOfMemory := true }

/-- 00E0: clear the display and request a redraw (R211). -/
def execCls (s : State) : Result := .next (s.showDisplay Display.blank)

/-- The draw of Dxyn on the picture as it stands: the origin wraps, the pixels are clipped (R212). -/
def State.drawSprite (s : State) (x y n : Nibble) : Drawing :=
  drawRows s.readByte s.i.toNat ((s.readV x).toNat % 64) ((s.readV y).toNat % 32) n.toNat 0
    ⟨s.disp, false, false⟩

/-- Emit DRAW_READ_OOB if the draw left memory (R212, R315). -/
def State.emitIf (s : State) (e : DiagEvent) (b : Bool) : State := if b then s.emit e else s

/-- Dxyn: draw a sprite; VF tells whether a lit pixel was cleared, and DRAW is set whatever was drawn (R212).
The origin is read before VF is reset (decision D13). -/
def execDrw (x y n : Nibble) (s : State) : Result :=
  .next (((s.showDisplay (s.drawSprite x y n).disp).setV 0xF (if (s.drawSprite x y n).collision then 1 else 0)).emitIf
    .drawReadOob (s.drawSprite x y n).outOfMemory)

end Sys2Proof.Machine
end

