-- ==== Sys2Proof/Machine/Index.lean ====
section
/-! DEFINITION. The index-register and memory-transfer instructions (R240, R241, R245 to R249). No address
wraps: `zext(I)` is the natural `s.i.toNat` (R75). Only Annn, Fx1E and Fx29 change I (R35). -/

namespace Sys2Proof.Machine

/-- Annn: set I (R240). -/
def execLdI (nnn : Addr12) (s : State) : Result := .next (s.setI (addrOperand nnn))

/-- Fx1E: add a register to I modulo 2^16, no flag (R241). -/
def execAddIVx (x : Nibble) (s : State) : Result := .next (s.setI (s.i + s.readVWide x))

/-- Fx29: point I at a glyph (R245). -/
def execLdFVx (x : Nibble) (s : State) : Result := .next (s.setI (glyphAddr (s.readVWide x)))

/-- The three decimal digits of `v` at `a`, `a + 1`, `a + 2` (R246). -/
def State.writeDigits (s : State) (a : Nat) (v : Byte) : State :=
  ((s.writeByte a (hundreds v)).writeByte (a + 1) (tens v)).writeByte (a + 2) (units v)

/-- Fx33: store the decimal digits of Vx, or nothing at all if they do not fit (R246). -/
def execLdBVx (x : Nibble) (s : State) : Result :=
  if inMemory (s.i.toNat + 2) then .next (s.writeDigits s.i.toNat (s.readV x))
  else .next (s.emit .bcdWriteOob)

/-- Store `count` registers from V[j] on, until an address leaves memory (R247). -/
def State.storeRegs : Nat → Nat → State → State
  | 0, _, s => s
  | count + 1, j, s =>
    if inMemory (s.i.toNat + j) then
      State.storeRegs count (j + 1) (s.writeByte (s.i.toNat + j) (s.readV (BitVec.ofNat 4 j)))
    else s.emit .storeOob

/-- Load `count` registers from V[j] on, until an address leaves memory (R248). -/
def State.loadRegs : Nat → Nat → State → State
  | 0, _, s => s
  | count + 1, j, s =>
    if inMemory (s.i.toNat + j) then
      State.loadRegs count (j + 1) (s.setV (BitVec.ofNat 4 j) (s.readByte (s.i.toNat + j)))
    else s.emit .loadOob

/-- Fx55: store V0 to Vx, inclusive (R247). -/
def execLdMemVx (x : Nibble) (s : State) : Result := .next (State.storeRegs (x.toNat + 1) 0 s)

/-- Fx65: load V0 to Vx, inclusive (R248). -/
def execLdVxMem (x : Nibble) (s : State) : Result := .next (State.loadRegs (x.toNat + 1) 0 s)

end Sys2Proof.Machine
end

