-- ==== Sys2Proof/Machine/Keypad.lean ====
section
/-! DEFINITION. The keypad instructions and the key-wait latch (R260 to R265). -/

namespace Sys2Proof.Machine

/-- Ex9E: skip if the key Vx names is pressed (R261). -/
def execSkp (x : Nibble) (s : State) : Result :=
  match keyIndex s.params.keyIndex (s.readV x) with
  | some k => .next (s.skipIf (s.keyDown k))
  | none => .next (s.raiseFault .keyIndexRange)

/-- ExA1: skip if the key Vx names is not pressed (R262). -/
def execSknp (x : Nibble) (s : State) : Result :=
  match keyIndex s.params.keyIndex (s.readV x) with
  | some k => .next (s.skipIf (!s.keyDown k))
  | none => .next (s.raiseFault .keyIndexRange)

/-- Fx0A while the latch is IDLE or AWAIT_PRESS: record the lowest pressed key, or poll again (R263). -/
def State.pollPress (s : State) (x : Nibble) : State :=
  match lowestPressed s.key with
  | some k => ((s.setV x (BitVec.ofNat 8 k)).setKw .awaitRelease).rewind
  | none => (s.setKw .awaitPress).rewind

/-- Fx0A while the latch is AWAIT_RELEASE: complete once every key is released (R263). -/
def State.pollRelease (s : State) : State :=
  match lowestPressed s.key with
  | some _ => s.rewind
  | none => s.setKw .idle

/-- Fx0A: wait for a key press and release (R263). -/
def execLdVxK (x : Nibble) (s : State) : Result :=
  match s.kw with
  | .idle => .next (s.pollPress x)
  | .awaitPress => .next (s.pollPress x)
  | .awaitRelease => .next s.pollRelease

end Sys2Proof.Machine
end

