-- ==== Sys2Proof/Machine/Timers.lean ====
section
/-! DEFINITION. The timer instructions (R230 to R233). The countdown is the frame scheduler's. -/

namespace Sys2Proof.Machine

/-- Fx07: read the delay timer (R230). -/
def execLdVxDt (x : Nibble) (s : State) : Result := .next (s.setV x s.dt)

/-- Fx15: set the delay timer (R231). -/
def execLdDtVx (x : Nibble) (s : State) : Result := .next { s with dt := s.readV x }

/-- Fx18: set the sound timer (R232). -/
def execLdStVx (x : Nibble) (s : State) : Result := .next { s with st := s.readV x }

end Sys2Proof.Machine
end

