-- ==== Sys2Proof/Machine/Scheduler.lean ====
section
/-! DEFINITION. The frame scheduler around the slots (R280 to R291) and the fetch of a slot (R120 to R123). -/

namespace Sys2Proof.Machine

/-! ## The fetch (R120, R121) -/

/-- What the fetch and decode of a slot find. -/
inductive Fetched where
  /-- The slot begins at 0x0FFF or beyond. -/
  | outOfRange
  /-- The word selects none of the 34 instructions. -/
  | unmapped
  | instr (i : Instr)
deriving DecidableEq, Repr

/-- The bytes of the instruction at PC, in memory order (R76). -/
def State.fetchBytes (s : State) : List Byte := [s.readByte s.pc.toNat, s.readByte (s.pc.toNat + 1)]

/-- Fetch and decode at PC, in memory as it is at this moment (R120 to R122). -/
def State.fetch (s : State) : Fetched :=
  if inMemory (s.pc.toNat + 1) then
    match decodeBytes s.params.family0 s.fetchBytes with
    | .ok (i, _) => .instr i
    | .error _ => .unmapped
  else .outOfRange

/-- A slot that cannot be fetched (R121): PC is the address that could not be fetched. -/
def State.fetchFault (s : State) : State := s.raiseFaultAt .fetchOutOfRange s.pc

/-! ## The frame step around the budget (R280) -/

/-- The host's input at the frame that begins now: the one at hand, else a free value. -/
def State.nextHostInput (s : State) : HostInput :=
  match s.hostIn with
  | h :: _ => h
  | [] => Config.hostInput s.frameNo

/-- The host's input is consumed, and the frame is counted. -/
def State.afterHostInput (s : State) : State := { s with hostIn := s.hostIn.tail, frameNo := s.frameNo + 1 }

/-- The keypad levels `keys_in` gives: key `k` is bit `k` (R12). -/
def keyLevels (keysIn : BitVec 16) : Vector Bool 16 := Vector.ofFn (fun k => keysIn.getLsbD k.val)

/-- RUN under `pause_toggle` (R281, R291). -/
def togglePause (r : RunState) : RunState :=
  match r with
  | .running => .paused
  | .paused => .running
  | .stopped => .stopped

/-- R280 from `draw_req <- 0; diag <- []` to the beginning of the budget, with the inputs `h`. -/
def State.beginFrame (s : State) (h : HostInput) : State :=
  if s.run = .stopped then { s with drawReq := false, diag := [], soundOn := false }
  else if h.exitReq then { s with drawReq := false, diag := [], run := .stopped, soundOn := false }
  else if (if h.pauseToggle then togglePause s.run else s.run) = .paused then
    { s with drawReq := false, diag := [], run := .paused, key := keyLevels h.keysIn, soundOn := s.st != 0 }
  else
    { s with drawReq := false, diag := [], run := .running, key := keyLevels h.keysIn,
             phase := .slots s.params.ipf }

/-- The step that begins a frame with the host's input of that frame. -/
def State.startFrame (s : State) : State := s.afterHostInput.beginFrame s.nextHostInput

/-- One of the budget's slots is taken: `left` remain (R283). -/
def State.takeSlot (s : State) (left : Nat) : State := { s with phase := .slots left }

/-- A timer at the end of a running frame: down by one, never below 0 (R285). -/
def decay (t : Byte) : Byte := if t = 0 then 0 else t - 1

/-- R280 after the budget: the timers, the draw signal, the sound signal (R285 to R287). `draw_req` was driven 0
when the frame began, so it ends as DRAW. -/
def State.endFrame (s : State) : State :=
  { s with dt := decay s.dt, st := decay s.st, drawReq := s.draw, draw := false,
           soundOn := decay s.st != 0, phase := .between }

end Sys2Proof.Machine
end

