-- ==== Sys2Proof/Machine/Step.lean ====
section
/-! DEFINITION. One step: the beginning of a frame, one slot of its budget, or its end (R280; log entry 1). -/

namespace Sys2Proof.Machine

/-- One instruction slot (R120): the fetch, the pre-increment, and the selected rule, or nothing if unmapped. -/
def slot (s : State) : Host.Outcome State Fault Refusal :=
  match s.fetch with
  | .outOfRange => .next s.fetchFault
  | .unmapped => execUnmapped s.advance
  | .instr i => exec i s.advance

/-- One step of the machine. -/
def step (s : State) : Host.Outcome State Fault Refusal :=
  match s.phase with
  | .between => .next s.startFrame
  | .slots 0 => .next s.endFrame
  | .slots (left + 1) => slot (s.takeSlot left)

/-- `s` with the instruction whose word is `w` at PC, in a running frame that has a slot left to run it. If PC
holds an address that cannot be fetched, it is set to the program's entry. -/
def State.withFetchWord (s : State) (nbits w : Nat) : State :=
  let a := if inMemory (s.pc.toNat + 1) then s.pc else BitVec.ofNat 16 Config.progBase
  let t := (s.writeByte a.toNat (highByte (tableWord nbits w))).writeByte (a.toNat + 1) (lowByte (tableWord nbits w))
  { t with pc := a, run := .running,
           phase := match s.phase with
             | .slots (left + 1) => .slots (left + 1)
             | _ => .slots (max 1 s.params.ipf) }

end Sys2Proof.Machine
end

