-- ==== Sys2Proof/WellFormed.lean ====
section
/-! DEFINITION. What must be checked of the data the core is given. An `Instr` needs no check: each of its
fields has exactly the width of R101, so every term of the type is an instruction the encoding admits (the
round trip through the encoder is stated for every one of them). The parameters and the program image do
need one. -/

namespace Sys2Proof

/-- "A model takes IPF as a parameter with IPF >= 1" (R290). -/
def Params.wf (p : Params) : Bool := decide (1 ≤ p.ipf)

/-- A program image fits above 0x200 (R345, R346). -/
def romFits (rom : List Byte) : Bool := decide (rom.length ≤ Config.maxRom)

end Sys2Proof
end

