-- ==== Sys2Proof/Machine/Boot.lean ====
section
/-! DEFINITION. Boot, the only reset (R340 to R346): the font and the zeros are what memory reads as unlisted, and
the program image is written at 0x200. -/

namespace Sys2Proof.Machine

/-- How a boot fails (R346): it is no runtime fault, and no machine is created. -/
inductive BootFailure where
  /-- The program image is missing, or longer than 3584 bytes. -/
  | romLoadFailure
deriving DecidableEq, Repr

/-- The bytes of a program image, one after the other from `a` on (R345). -/
def State.loadBytes : List Byte → Nat → State → State
  | [], _, s => s
  | b :: rest, a, s => State.loadBytes rest (a + 1) (s.writeByte a b)

/-- `boot(rom)` under the parameters `p` (R340); `none` is a missing image. -/
def boot (p : Params) (rom : Option (List Byte)) : Except BootFailure State :=
  match rom with
  | none => .error .romLoadFailure
  | some bytes =>
    if romFits bytes then .ok (State.loadBytes bytes Config.progBase (State.bootWith p))
    else .error .romLoadFailure

end Sys2Proof.Machine
end

