-- ==== Sys2Proof/Machine/Frame.lean ====
section
/-! DEFINITION. The frame step in one piece, as R280 writes it: what the steps of `step` between two frame
boundaries are held against. -/

namespace Sys2Proof.Machine

/-- "Repeat `count` times: run one slot; if the slot raised a fatal fault: return", and the end of the frame
after the last (R280, R283, R284). A fatal fault is what leaves RUN at STOPPED (R311). -/
def runSlots : Nat → State → Host.Outcome State Fault Refusal
  | 0, s => .next s.endFrame
  | count + 1, s =>
    match slot (s.takeSlot count) with
    | .next t => if t.run = .stopped then .next t else runSlots count t
    | .fault r => .fault r
    | .refused r => .refused r

/-- One whole frame with the host's inputs `h` (R280). -/
def runFrame (h : HostInput) (s : State) : Host.Outcome State Fault Refusal :=
  if (s.beginFrame h).run = .running then runSlots s.params.ipf (s.beginFrame h) else .next (s.beginFrame h)

end Sys2Proof.Machine
end

