-- ==== Sys2Proof/Safety.lean ====
section
/-! DEFINITION. What the claims say in their own terms: what the states that a machine reaches have in common,
which places a sprite covers, how a word decodes, and which instructions write what. -/

namespace Sys2Proof.Machine

/-! ## Invariants -/

/-- Memory is in its canonical form (R70: no cell outside the 4096 bytes). -/
def State.MemoryForm (s : State) : Prop := Memory.wf s.params.font s.mem = true

/-- "PC never exceeds 0x10FE" (R37), and no return address exceeds 0x1000 (R39). -/
def State.AddressBounds (s : State) : Prop :=
  s.pc.toNat ≤ 0x10FE ∧ ∀ w ∈ s.stack.toList, w.toNat ≤ 0x1000

/-- Slots run only while RUNNING and at most IPF of them remain (R283); a recorded fault means STOPPED (R46,
R311); between two frames of a machine that is not stopped nothing waits to be drawn (R286). -/
def State.FrameDiscipline (s : State) : Prop :=
  (∀ left, s.phase = .slots left → s.run = .running ∧ left ≤ s.params.ipf) ∧
  (s.fault ≠ none → s.run = .stopped) ∧
  (s.phase = .between → s.run ≠ .stopped → s.draw = false)

/-- "Whenever KW != IDLE at the start of a slot, the word at PC is the Fx0A that set it" (R265). -/
def State.KeyWaitAtPc (s : State) : Prop :=
  s.kw ≠ .idle → ∃ x, s.fetch = .instr (.ldVxK x)

/-- All of them together. -/
def State.Inv (s : State) : Prop :=
  s.MemoryForm ∧ s.AddressBounds ∧ s.FrameDiscipline ∧ s.KeyWaitAtPc

/-! ## The encoding of one instruction -/

/-- "A word `w` selects the row when `w AND mask = match`" (R111), and then it is the instruction `f w`, under
either value of FAMILY0_MATCH. -/
def DecodesAs (mask bits : Word) (f : Word → Instr) : Prop :=
  ∀ (m : Family0Match) (w : Word), w &&& mask = bits → decode m w = .ok (f w)

/-! ## The picture -/

/-- The sprite of Dxyn covers the place with a set bit (R210, R212): the row is one of its `n` rows below the
origin row and its byte lies in memory, the column is one of its eight, and the bit for it is set, bit 7 being
the leftmost. -/
def State.SpriteCovers (s : State) (x y n : Nibble) (row col : Nat) : Prop :=
  (s.readV y).toNat % 32 ≤ row ∧ row < (s.readV y).toNat % 32 + n.toNat ∧
  s.i.toNat + (row - (s.readV y).toNat % 32) < 4096 ∧
  (s.readV x).toNat % 64 ≤ col ∧ col < (s.readV x).toNat % 64 + 8 ∧
  (s.readByte (s.i.toNat + (row - (s.readV y).toNat % 32))).getLsbD (7 - (col - (s.readV x).toNat % 64)) = true

/-! ## Memory after a store -/

/-- The number in the byte at `a` after an Fx33 begun in `s` (R246): a decimal digit of Vx at I, I + 1 and I + 2, if all
three are in memory, and what was there elsewhere. -/
def State.byteAfterDigits (s : State) (x : Nibble) (a : Nat) : Nat :=
  if s.i.toNat + 2 < 4096 ∧ a = s.i.toNat then (s.readV x).toNat / 100
  else if s.i.toNat + 2 < 4096 ∧ a = s.i.toNat + 1 then (s.readV x).toNat / 10 % 10
  else if s.i.toNat + 2 < 4096 ∧ a = s.i.toNat + 2 then (s.readV x).toNat % 10
  else (s.readByte a).toNat

/-- The number in the byte at `a` after an Fx55 begun in `s` (R247): Vk at I + k, for k up to x as far as memory
reaches, and what was there elsewhere. -/
def State.byteAfterBlock (s : State) (x : Nibble) (a : Nat) : Nat :=
  if s.i.toNat ≤ a ∧ a ≤ s.i.toNat + x.toNat ∧ a < 4096 then (s.readV (BitVec.ofNat 4 (a - s.i.toNat))).toNat
  else (s.readByte a).toNat

/-! ## Who writes what -/

/-- The step is a slot that runs one of the instructions of `p`. -/
def State.RunsOneOf (s : State) (p : Instr → Prop) : Prop :=
  ∃ left i, s.phase = .slots (left + 1) ∧ s.fetch = .instr i ∧ p i

/-- The writers of the V registers (R34): 6xkk, 7xkk, 8xy0 to 8xyE, Cxkk, Fx07, Fx0A, Fx65, and Dxyn, which
writes VF as a flag (R33). -/
def writesV : Instr → Bool
  | .ldImm _ _ | .addImm _ _ | .ldReg _ _ | .orReg _ _ | .andReg _ _ | .xorReg _ _ | .addReg _ _
  | .subReg _ _ | .shr _ | .subnReg _ _ | .shl _ | .rnd _ _ | .ldVxDt _ | .ldVxK _ | .ldVxMem _
  | .drw _ _ _ => true
  | .cls | .ret | .jp _ | .call _ | .seImm _ _ | .sneImm _ _ | .seReg _ _ | .sneReg _ _ | .ldI _
  | .jpV0 _ | .skp _ | .sknp _ | .ldDtVx _ | .ldStVx _ | .addIVx _ | .ldFVx _ | .ldBVx _ | .ldMemVx _ => false

/-- The writers of I: Annn, Fx1E and Fx29 (R35). -/
def WritesI (i : Instr) : Prop := (∃ nnn, i = .ldI nnn) ∨ (∃ x, i = .addIVx x) ∨ (∃ x, i = .ldFVx x)

/-- The instructions that store to memory: Fx33 and Fx55 (R73). -/
def Stores (i : Instr) : Prop := (∃ x, i = .ldBVx x) ∨ (∃ x, i = .ldMemVx x)

/-- The instructions that write the display: 00E0 and Dxyn (R43). -/
def Draws (i : Instr) : Prop := i = .cls ∨ ∃ x y n, i = .drw x y n

/-- The instructions that use the call stack: 2nnn, which pushes, and 00EE, which pops (R38). -/
def UsesStack (i : Instr) : Prop := (∃ nnn, i = .call nnn) ∨ i = .ret

end Sys2Proof.Machine
end

