-- ==== Sys2Proof/Certificates/Slice0/Obligations.lean ====
section
/-! DEFINITION. The statements for the provers. An instruction's meaning starts after the fetch and the
pre-increment (R18), so a statement about the instruction in a slot that begins in the state `s` is about
`exec i s.advance`, where PC holds the instruction's address plus 2. A conclusion `t = { s.advance with v := t.v }`
says that every other piece of state is as it was, and that PC ends at the instruction's address plus 2. -/

open Sys2Proof Sys2Proof.Machine

/-! ## Encoding and decode -/

/-- No bit of an encoding is dropped: the bytes of an instruction, followed by anything, decode to it with every
operand, and exactly two bytes are consumed (R100, R101, R111). The encoder is the model's, from R111 (log entry
15); 19 of the opcode numbers are the spec's decision D33 (log entry 10). -/
def Obligations.EncodeThenDecodeIsIdentity : Prop :=
  ∀ (m : Family0Match) (i : Instr) (rest : List Byte), decodeBytes m (encodeBytes i ++ rest) = .ok (i, rest)

/-- A word decodes to an instruction exactly when it selects a row of the opcode map, and the instruction stands in
a row it selects; every other word is unmapped (R111; R112, which the spec marks as derived). 19 of the opcode numbers
are the spec's decision D33 (log entry 10), the masks of 00E0 and 00EE its decision D8 (log entry 4). -/
def Obligations.DecodeFollowsOpcodeMap : Prop :=
  ∀ (m : Family0Match) (w : Word),
    (∀ i, decode m w = .ok i → (i.row m).selects w = true) ∧
    ((∃ i, decode m w = .ok i) ↔ ∃ r ∈ opcodeMap m, r.selects w = true)

/-- "No two rows of rule R111 match the same word, under either value of FAMILY0_MATCH" (R112, which the
spec marks as derived; numbers and masks as in DecodeFollowsOpcodeMap). -/
def Obligations.NoWordSelectsTwoRows : Prop :=
  (∀ m, (opcodeMap m).length = 34 ∧ (opcodeMap m).Nodup) ∧
  ∀ (m : Family0Match) (w : Word) (r₁ r₂ : OpcodeRow), r₁ ∈ opcodeMap m → r₂ ∈ opcodeMap m →
    r₁.selects w = true → r₂.selects w = true → r₁ = r₂

/-- Words the spec itself reads: 6005, 8014 and D012 of the source's scenarios, and the examples of the rules.
The numbers of 2300 and E19E are the spec's decision D33 (log entry 10), the two readings of 01E0 its decision D8 (log
entry 4), the ignored low nibble of 5121 its decision D9 (log entry 18). -/
def Obligations.SampleWordsDecode : Prop :=
  decode .lowByte 0x6005 = .ok (.ldImm 0 5) ∧ decode .lowByte 0x8014 = .ok (.addReg 0 1) ∧
  decode .lowByte 0xD012 = .ok (.drw 0 1 2) ∧ decode .lowByte 0x2300 = .ok (.call 0x300) ∧
  decode .lowByte 0x01E0 = .ok .cls ∧ decode .exactWord 0x01E0 = .error (.unmapped0 0x01E0) ∧
  decode .lowByte 0x5121 = .ok (.seReg 1 2) ∧ decode .lowByte 0x8008 = .error (.unmapped8 8) ∧
  decode .lowByte 0xF30A = .ok (.ldVxK 3) ∧ decode .lowByte 0xE19E = .ok (.skp 1)

/-! ## The instruction cycle -/

/-- A slot fetches two bytes big-endian, advances PC by 2, and runs the instruction they decode to (R76, R120; that
every word gets the increment is the spec's decision D7): the step is `exec` of it, in the state whose PC is already
the address plus 2 and which has one slot less to run (the cut into slots is the model's, log entry 1). -/
def Obligations.StepRunsDecodedInstruction : Prop :=
  ∀ (s : State) (left : Nat) (w : Word) (i : Instr), s.phase = .slots (left + 1) → s.pc.toNat + 1 < 4096 →
    w.toNat = 256 * (s.readByte s.pc.toNat).toNat + (s.readByte (s.pc.toNat + 1)).toNat →
    decode s.params.family0 w = .ok i →
    step s = exec i { s with pc := s.pc + 2, phase := .slots left }

/-- An unmapped word takes its slot and moves PC by 2; no other state changes and no event is emitted (R110; the
spec marks the last clause as its decision D26). -/
def Obligations.UnmappedWordIsNoOp : Prop :=
  ∀ (s : State) (left : Nat) (w : Word) (e : DecodeReject), s.phase = .slots (left + 1) → s.pc.toNat + 1 < 4096 →
    w.toNat = 256 * (s.readByte s.pc.toNat).toNat + (s.readByte (s.pc.toNat + 1)).toNat →
    decode s.params.family0 w = .error e →
    step s = .next { s with pc := s.pc + 2, phase := .slots left }

/-- The four fatal faults and their conditions (R310), each with the fault entry of R311: PC is the faulting
instruction's address, FAULT holds the code and that address, RUN is STOPPED, the frame is over with `draw_req`
and `sound_on` 0, and nothing else has changed. The spec marks these as its decisions D2 to D5, D12 and D31. -/
def Obligations.FatalFaultsAreTaken : Prop :=
  ∀ s : State,
    let after (c : FaultCode) : State :=
      { s with fault := some ⟨c, s.pc⟩, run := .stopped, phase := .between, drawReq := false, soundOn := false }
    (∀ nnn, s.sp.val = 16 → exec (.call nnn) s.advance = .next (after .stackOverflow)) ∧
    (s.sp.val = 0 → exec .ret s.advance = .next (after .stackUnderflow)) ∧
    (∀ left, s.phase = .slots (left + 1) → 0x0FFF ≤ s.pc.toNat → step s = .next (after .fetchOutOfRange)) ∧
    (∀ x, s.params.keyIndex = .fault → 0xF < (s.readV x).toNat →
      exec (.skp x) s.advance = .next (after .keyIndexRange) ∧
      exec (.sknp x) s.advance = .next (after .keyIndexRange))

/-- Faults are precise (R311, R312): whatever step sets FAULT is a slot, records the address the slot began at,
stops the machine, and leaves every other piece of state as it was when the slot began. That a fault is precise is the
spec's decision D4 (log entry 12), what its frame's outputs are D31 (log entry 17). -/
def Obligations.FaultsArePrecise : Prop :=
  ∀ (s t : State) (f : FaultRecord), s.fault = none → step s = .next t → t.fault = some f →
    (∃ left, s.phase = .slots (left + 1)) ∧ f.addr = s.pc ∧
    t = { s with fault := some f, run := .stopped, phase := .between, drawReq := false, soundOn := false } ∧
    (f.code = .stackOverflow → s.sp.val = 16 ∧ ∃ nnn, s.fetch = .instr (.call nnn)) ∧
    (f.code = .stackUnderflow → s.sp.val = 0 ∧ s.fetch = .instr .ret) ∧
    (f.code = .fetchOutOfRange → 0x0FFF ≤ s.pc.toNat) ∧
    (f.code = .keyIndexRange → s.params.keyIndex = .fault ∧
      ∃ x, 0xF < (s.readV x).toNat ∧ (s.fetch = .instr (.skp x) ∨ s.fetch = .instr (.sknp x)))

/-- FAULT, "once set, is never cleared" (R46, the spec's decision D4): no step of a machine whose FAULT is set
changes it, or any register, memory, the stack, the timers, the display, the keypad or KW. -/
def Obligations.FaultIsFinal : Prop :=
  ∀ (s t : State), s.FrameDiscipline → s.fault ≠ none → step s = .next t →
    t.fault = s.fault ∧ t.run = .stopped ∧ t.pc = s.pc ∧ t.v = s.v ∧ t.i = s.i ∧ t.mem = s.mem ∧
    t.stack = s.stack ∧ t.sp = s.sp ∧ t.dt = s.dt ∧ t.st = s.st ∧ t.key = s.key ∧ t.kw = s.kw ∧
    t.disp = s.disp ∧ t.draw = s.draw

/-! ## Control flow -/

/-- 00EE with a live return address: SP goes down by one and PC takes the entry (R140; underflow, the spec's
decision D3, is in FatalFaultsAreTaken). -/
def Obligations.ReturnPopsEntry : Prop :=
  ∀ s : State, s.sp.val ≠ 0 → ∃ t, exec .ret s.advance = .next t ∧
    t = { s.advance with sp := t.sp, pc := t.pc } ∧ t.sp.val + 1 = s.sp.val ∧ s.stack[t.sp.val]? = some t.pc

/-- 2nnn with room on the stack: the return address, the instruction's own plus 2, is pushed, and PC is nnn (R142;
the capacity and the overflow are the spec's decisions D1 and D2). -/
def Obligations.CallPushesReturnAddress : Prop :=
  ∀ (nnn : Addr12) (s : State), s.sp.val < 16 → ∃ t, exec (.call nnn) s.advance = .next t ∧
    t = { s.advance with stack := t.stack, sp := t.sp, pc := t.pc } ∧ t.sp.val = s.sp.val + 1 ∧
    t.pc.toNat = nnn.toNat ∧
    ∀ j (h : j < 16), t.stack[j] = if j = s.sp.val then s.pc + 2 else s.stack[j]

/-- A call and the return that answers it come back to the instruction after the call at the same depth, with every
entry that was live before the call as it was, whatever ran in between that brought SP back and kept the live entries:
a subroutine that itself called and returned has rewritten entries that are dead again (R38, R140, R142). -/
def Obligations.ReturnComesBackToCall : Prop :=
  ∀ (nnn : Addr12) (s t u : State), s.sp.val < 16 → exec (.call nnn) s.advance = .next t →
    u.sp = t.sp → (∀ j (h : j < 16), j < t.sp.val → u.stack[j] = t.stack[j]) →
    ∃ r, exec .ret u.advance = .next r ∧ r.pc = s.pc + 2 ∧ r.sp = s.sp ∧
      ∀ j (h : j < 16), j < s.sp.val → r.stack[j] = s.stack[j]

/-- 1nnn: PC is nnn, and nothing else changes (R141; the number 1 is the spec's decision D33). -/
def Obligations.JumpSetsPc : Prop :=
  DecodesAs 0xF000 0x1000 (fun w => .jp (fieldNNN w)) ∧
  ∀ (nnn : Addr12) (s : State),
    ∃ t, exec (.jp nnn) s.advance = .next t ∧ t = { s with pc := t.pc } ∧ t.pc.toNat = nnn.toNat

/-- Bnnn: PC is nnn + V0, without a reduction; nothing else changes (R147). -/
def Obligations.JumpAddsV0 : Prop :=
  DecodesAs 0xF000 0xB000 (fun w => .jpV0 (fieldNNN w)) ∧
  ∀ (nnn : Addr12) (s : State),
    ∃ t, exec (.jpV0 nnn) s.advance = .next t ∧ t = { s with pc := t.pc } ∧
      t.pc.toNat = nnn.toNat + (s.readV 0).toNat

/-- 3xkk, 4xkk, 5xy0 and 9xy0: PC is the instruction's address plus 4 if the predicate holds, plus 2 if not, and
nothing else changes (R143 to R146; the numbers 3, 4, 5 and 9 are the spec's decision D33, the ignored low nibble of
5 and 9 is D9). -/
def Obligations.RegisterSkips : Prop :=
  DecodesAs 0xF000 0x3000 (fun w => .seImm (fieldX w) (fieldKK w)) ∧
  DecodesAs 0xF000 0x4000 (fun w => .sneImm (fieldX w) (fieldKK w)) ∧
  DecodesAs 0xF000 0x5000 (fun w => .seReg (fieldX w) (fieldY w)) ∧
  DecodesAs 0xF000 0x9000 (fun w => .sneReg (fieldX w) (fieldY w)) ∧
  ∀ (x y : Nibble) (kk : Byte) (s : State),
    (exec (.seImm x kk) s.advance = .next { s with pc := if s.readV x = kk then s.pc + 4 else s.pc + 2 }) ∧
    (exec (.sneImm x kk) s.advance = .next { s with pc := if s.readV x = kk then s.pc + 2 else s.pc + 4 }) ∧
    (exec (.seReg x y) s.advance = .next { s with pc := if s.readV x = s.readV y then s.pc + 4 else s.pc + 2 }) ∧
    (exec (.sneReg x y) s.advance = .next { s with pc := if s.readV x = s.readV y then s.pc + 2 else s.pc + 4 })

/-- Ex9E and ExA1 where they raise no fault: the key is the register modulo 16, PC is the address plus 4 or plus 2,
and nothing else changes (R148, R260 to R262; numbers, meaning and key index are the spec's decisions D12, D33
and D34). -/
def Obligations.KeySkips : Prop :=
  DecodesAs 0xF0FF 0xE09E (fun w => .skp (fieldX w)) ∧ DecodesAs 0xF0FF 0xE0A1 (fun w => .sknp (fieldX w)) ∧
  ∀ (x : Nibble) (s : State), s.params.keyIndex = .lowNibble ∨ (s.readV x).toNat ≤ 0xF →
    ∃ (k : Nat) (h : k < 16), k = (s.readV x).toNat % 16 ∧
      exec (.skp x) s.advance = .next { s with pc := if s.key[k] = true then s.pc + 4 else s.pc + 2 } ∧
      exec (.sknp x) s.advance = .next { s with pc := if s.key[k] = true then s.pc + 2 else s.pc + 4 }

/-! ## Arithmetic and logic -/

/-- 6xkk: Vx is kk, and nothing else changes, VF included unless it is the destination (R171). -/
def Obligations.LoadImmediateWritesRegister : Prop :=
  DecodesAs 0xF000 0x6000 (fun w => .ldImm (fieldX w) (fieldKK w)) ∧
  ∀ (x : Nibble) (kk : Byte) (s : State),
    ∃ t, exec (.ldImm x kk) s.advance = .next t ∧ t = { s.advance with v := t.v } ∧
      ∀ j, t.readV j = if j = x then kk else s.readV j

/-- 8xy0, 8xy1, 8xy2 and 8xy3: the destination receives the value, and every other register, VF included, keeps its
own (R173 to R176; the sub-codes 0 to 3 are the spec's decision D33). -/
def Obligations.LogicWritesOneRegister : Prop :=
  DecodesAs 0xF00F 0x8000 (fun w => .ldReg (fieldX w) (fieldY w)) ∧
  DecodesAs 0xF00F 0x8001 (fun w => .orReg (fieldX w) (fieldY w)) ∧
  DecodesAs 0xF00F 0x8002 (fun w => .andReg (fieldX w) (fieldY w)) ∧
  DecodesAs 0xF00F 0x8003 (fun w => .xorReg (fieldX w) (fieldY w)) ∧
  ∀ (x y : Nibble) (s : State),
    let writes (i : Instr) (r : Byte) : Prop :=
      ∃ t, exec i s.advance = .next t ∧ t = { s.advance with v := t.v } ∧
        ∀ j, t.readV j = if j = x then r else s.readV j
    writes (.ldReg x y) (s.readV y) ∧ writes (.orReg x y) (s.readV x ||| s.readV y) ∧
    writes (.andReg x y) (s.readV x &&& s.readV y) ∧ writes (.xorReg x y) (s.readV x ^^^ s.readV y)

/-- 7xkk: the sum modulo 256, no flag (R172; its number and meaning are the spec's decisions D33 and D34). -/
def Obligations.AddImmediateHasNoFlag : Prop :=
  DecodesAs 0xF000 0x7000 (fun w => .addImm (fieldX w) (fieldKK w)) ∧
  ∀ (x : Nibble) (kk : Byte) (s : State),
    ∃ t, exec (.addImm x kk) s.advance = .next t ∧ t = { s.advance with v := t.v } ∧
      ∀ j, (t.readV j).toNat = if j = x then ((s.readV x).toNat + kk.toNat) % 256 else (s.readV j).toNat

/-- 8xy4: VF is the carry, also when it is the destination; another destination is the sum modulo 256; no other
register changes (R177). -/
def Obligations.AddWritesCarry : Prop :=
  DecodesAs 0xF00F 0x8004 (fun w => .addReg (fieldX w) (fieldY w)) ∧
  ∀ (x y : Nibble) (s : State),
    ∃ t, exec (.addReg x y) s.advance = .next t ∧ t = { s.advance with v := t.v } ∧
      ∀ j, (t.readV j).toNat =
        if j = 0xF then (if (s.readV x).toNat + (s.readV y).toNat > 255 then 1 else 0)
        else if j = x then ((s.readV x).toNat + (s.readV y).toNat) % 256
        else (s.readV j).toNat

/-- 8xy5: VF is 1 when Vx is at least Vy before the subtraction, also when VF is the destination; another destination
is Vx - Vy modulo 256; no other register changes (R178). -/
def Obligations.SubtractWritesNoBorrow : Prop :=
  DecodesAs 0xF00F 0x8005 (fun w => .subReg (fieldX w) (fieldY w)) ∧
  ∀ (x y : Nibble) (s : State),
    ∃ t, exec (.subReg x y) s.advance = .next t ∧ t = { s.advance with v := t.v } ∧
      ∀ j, (t.readV j).toNat =
        if j = 0xF then (if (s.readV x).toNat ≥ (s.readV y).toNat then 1 else 0)
        else if j = x then (256 + (s.readV x).toNat - (s.readV y).toNat) % 256
        else (s.readV j).toNat

/-- 8xy7: the same with the operands exchanged (R180; the sub-code 7 is the spec's decision D33). -/
def Obligations.ReverseSubtractWritesNoBorrow : Prop :=
  DecodesAs 0xF00F 0x8007 (fun w => .subnReg (fieldX w) (fieldY w)) ∧
  ∀ (x y : Nibble) (s : State),
    ∃ t, exec (.subnReg x y) s.advance = .next t ∧ t = { s.advance with v := t.v } ∧
      ∀ j, (t.readV j).toNat =
        if j = 0xF then (if (s.readV y).toNat ≥ (s.readV x).toNat then 1 else 0)
        else if j = x then (256 + (s.readV y).toNat - (s.readV x).toNat) % 256
        else (s.readV j).toNat

/-- 8xy6 and 8xyE: Vx is shifted in place by one, whatever `y` is, and VF is the bit shifted out (R179, R181;
the sub-codes 6 and E are the spec's decision D33). -/
def Obligations.ShiftsInPlace : Prop :=
  DecodesAs 0xF00F 0x8006 (fun w => .shr (fieldX w)) ∧ DecodesAs 0xF00F 0x800E (fun w => .shl (fieldX w)) ∧
  ∀ (x : Nibble) (s : State),
    (∃ t, exec (.shr x) s.advance = .next t ∧ t = { s.advance with v := t.v } ∧
      ∀ j, (t.readV j).toNat =
        if j = 0xF then (s.readV x).toNat % 2 else if j = x then (s.readV x).toNat / 2 else (s.readV j).toNat) ∧
    (∃ t, exec (.shl x) s.advance = .next t ∧ t = { s.advance with v := t.v } ∧
      ∀ j, (t.readV j).toNat =
        if j = 0xF then (s.readV x).toNat / 128 else if j = x then 2 * (s.readV x).toNat % 256
        else (s.readV j).toNat)

/-- Cxkk: one byte is drawn, whatever it is, and Vx is that byte AND kk; the draw is the next `rnd` input at hand,
or a free value, for which this holds whatever it is (R182; the spec's decisions D11, D33 and D34). -/
def Obligations.RandomByteIsMasked : Prop :=
  DecodesAs 0xF000 0xC000 (fun w => .rnd (fieldX w) (fieldKK w)) ∧
  ∀ (x : Nibble) (kk : Byte) (s : State),
    ∃ (t : State) (r : Byte), exec (.rnd x kk) s.advance = .next t ∧
      t = { s.advance with v := t.v, rndIn := s.rndIn.tail, drawNo := s.drawNo + 1 } ∧
      (∀ b, s.rndIn.head? = some b → r = b) ∧ ∀ j, t.readV j = if j = x then r &&& kk else s.readV j

/-! ## Timers and I -/

/-- Fx07, Fx15 and Fx18 move a byte between Vx and a timer, and do nothing else (R230 to R232). -/
def Obligations.TimerInstructionsMoveBytes : Prop :=
  DecodesAs 0xF0FF 0xF007 (fun w => .ldVxDt (fieldX w)) ∧ DecodesAs 0xF0FF 0xF015 (fun w => .ldDtVx (fieldX w)) ∧
  DecodesAs 0xF0FF 0xF018 (fun w => .ldStVx (fieldX w)) ∧
  ∀ (x : Nibble) (s : State),
    (∃ t, exec (.ldVxDt x) s.advance = .next t ∧ t = { s.advance with v := t.v } ∧
      ∀ j, t.readV j = if j = x then s.dt else s.readV j) ∧
    exec (.ldDtVx x) s.advance = .next { s.advance with dt := s.readV x } ∧
    exec (.ldStVx x) s.advance = .next { s.advance with st := s.readV x }

/-- Fx1E adds Vx to I modulo 2^16, and Fx29 makes I five times the whole of Vx; VF and all else stay (R241,
R245). -/
def Obligations.IndexArithmetic : Prop :=
  DecodesAs 0xF0FF 0xF01E (fun w => .addIVx (fieldX w)) ∧ DecodesAs 0xF0FF 0xF029 (fun w => .ldFVx (fieldX w)) ∧
  ∀ (x : Nibble) (s : State),
    (∃ t, exec (.addIVx x) s.advance = .next t ∧ t = { s.advance with i := t.i } ∧
      t.i.toNat = (s.i.toNat + (s.readV x).toNat) % 65536) ∧
    (∃ t, exec (.ldFVx x) s.advance = .next t ∧ t = { s.advance with i := t.i } ∧
      t.i.toNat = 5 * (s.readV x).toNat)

/-- Annn: I is nnn (R240; its number and meaning are the spec's decisions D33 and D34). -/
def Obligations.LoadIndexIsZeroExtended : Prop :=
  DecodesAs 0xF000 0xA000 (fun w => .ldI (fieldNNN w)) ∧
  ∀ (nnn : Addr12) (s : State), ∃ t, exec (.ldI nnn) s.advance = .next t ∧ t = { s.advance with i := t.i } ∧
    t.i.toNat = nnn.toNat

/-- Fx29 on a digit points I at its glyph: with memory as the boot left it there, the five bytes at I are the FONT's
bytes of that digit, whatever the FONT is (R245; the font's place is the spec's derivation in R342). -/
def Obligations.GlyphIsAtFiveTimesDigit : Prop :=
  ∀ (x : Nibble) (s : State), (s.readV x).toNat ≤ 0xF → (∀ a, a < 80 → Memory.lookup s.mem a = none) →
    ∃ t, exec (.ldFVx x) s.advance = .next t ∧
      ∀ k, k < 5 → some (t.readByte (t.i.toNat + k)) = s.params.font[5 * (s.readV x).toNat + k]?

/-! ## Memory transfer -/

/-- Fx33: with room for three bytes, the decimal digits of Vx are stored at I, I + 1 and I + 2 and every other byte
keeps its value; without it nothing is stored and BCD_WRITE_OOB is emitted. Neither changes any other state, I
included (R246; I unchanged is the spec's decision D15, the unwrapped address D14, the event D25). -/
def Obligations.DecimalDigitsAreStored : Prop :=
  DecodesAs 0xF0FF 0xF033 (fun w => .ldBVx (fieldX w)) ∧
  ∀ (x : Nibble) (s : State),
    (s.i.toNat + 2 < 4096 → ∃ t, exec (.ldBVx x) s.advance = .next t ∧ t = { s.advance with mem := t.mem } ∧
      (t.readByte s.i.toNat).toNat = (s.readV x).toNat / 100 ∧
      (t.readByte (s.i.toNat + 1)).toNat = (s.readV x).toNat / 10 % 10 ∧
      (t.readByte (s.i.toNat + 2)).toNat = (s.readV x).toNat % 10 ∧
      ∀ a, a < s.i.toNat ∨ s.i.toNat + 2 < a → t.readByte a = s.readByte a) ∧
    (4096 ≤ s.i.toNat + 2 →
      exec (.ldBVx x) s.advance = .next { s.advance with diag := s.diag ++ [.bcdWriteOob] })

/-- Fx55: V0 to Vx are stored from I on, as far as memory reaches; STORE_OOB is emitted exactly if it does not reach
far enough; every other byte and all other state keep their value, I included (R247; the spec's decisions D14,
D15 and D25). -/
def Obligations.StoreRegistersUpToBound : Prop :=
  DecodesAs 0xF0FF 0xF055 (fun w => .ldMemVx (fieldX w)) ∧
  ∀ (x : Nibble) (s : State), ∃ t, exec (.ldMemVx x) s.advance = .next t ∧
    t = { s.advance with mem := t.mem, diag := t.diag } ∧
    (∀ j : Nibble, j.toNat ≤ x.toNat → s.i.toNat + j.toNat < 4096 →
      t.readByte (s.i.toNat + j.toNat) = s.readV j) ∧
    (∀ a, (a < s.i.toNat ∨ s.i.toNat + x.toNat < a ∨ 4096 ≤ a) → t.readByte a = s.readByte a) ∧
    t.diag = if 4096 ≤ s.i.toNat + x.toNat then s.diag ++ [.storeOob] else s.diag

/-- Fx65: V0 to Vx are loaded from I on, as far as memory reaches; the others keep their values; LOAD_OOB is emitted
exactly if it does not reach far enough; all other state keeps its value, I included (R248; the spec's decisions
D14, D15 and D25). -/
def Obligations.LoadRegistersUpToBound : Prop :=
  DecodesAs 0xF0FF 0xF065 (fun w => .ldVxMem (fieldX w)) ∧
  ∀ (x : Nibble) (s : State), ∃ t, exec (.ldVxMem x) s.advance = .next t ∧
    t = { s.advance with v := t.v, diag := t.diag } ∧
    (∀ j : Nibble, t.readV j =
      if j.toNat ≤ x.toNat ∧ s.i.toNat + j.toNat < 4096 then s.readByte (s.i.toNat + j.toNat) else s.readV j) ∧
    t.diag = if 4096 ≤ s.i.toNat + x.toNat then s.diag ++ [.loadOob] else s.diag

/-- Fx55 and then Fx65 with the same x and the same I leave every register as it was, at the memory bound too
(R249, which the spec marks as derived). -/
def Obligations.StoreThenLoadRoundTrips : Prop :=
  ∀ (x : Nibble) (s t : State), exec (.ldMemVx x) s.advance = .next t →
    ∃ u, exec (.ldVxMem x) t.advance = .next u ∧ u.v = s.v ∧ u.i = s.i ∧ u.mem = t.mem ∧ u.pc = s.pc + 4

/-- A store is seen by the very next fetch (R84, the spec's decision D28): after Fx33 or Fx55, at any I, PC is at the
next word, and a fetch there, or at any other PC while memory is not stored to again, reads the bytes stored where
the instruction covers one or both of the word's addresses, and the bytes that were there elsewhere. -/
def Obligations.StoreIsFetchedAtOnce : Prop :=
  ∀ (x : Nibble) (s : State),
    let isFetched (store : Instr) (byteAfter : Nat → Nat) : Prop :=
      ∃ t, exec store s.advance = .next t ∧ t.pc = s.pc + 2 ∧
        ∀ (u : State) (w : Word), u.mem = t.mem → u.params = t.params → u.pc.toNat + 1 < 4096 →
          w.toNat = 256 * byteAfter u.pc.toNat + byteAfter (u.pc.toNat + 1) →
          (∀ i, decode s.params.family0 w = .ok i → u.fetch = .instr i) ∧
          (∀ e, decode s.params.family0 w = .error e → u.fetch = .unmapped)
    isFetched (.ldBVx x) (s.byteAfterDigits x) ∧ isFetched (.ldMemVx x) (s.byteAfterBlock x)

/-- Memory "mutated thereafter only by the register-block-transfer and BCD instructions" (R73): a step after which
some byte reads otherwise is a slot that runs Fx33 or Fx55. -/
def Obligations.OnlyStoresChangeMemory : Prop :=
  ∀ (s t : State) (a : Nat), step s = .next t → t.readByte a ≠ s.readByte a → s.RunsOneOf Stores

/-! ## Display -/

/-- 00E0: every pixel is unlit, DRAW is 1, and nothing else changes (R211; the number 00E0 and its mask are the spec's
decisions D33 and D8). -/
def Obligations.ClearBlanksDisplay : Prop :=
  (∀ w : Word, w &&& 0xF0FF = 0x00E0 → decode .lowByte w = .ok .cls) ∧
  ∀ s : State, ∃ t, exec .cls s.advance = .next t ∧ t = { s.advance with disp := t.disp, draw := true } ∧
    ∀ row col (hr : row < 32) (hc : col < 64), t.disp[row][col] = false

/-- Dxyn flips exactly the in-bounds pixels under set sprite bits; VF is 1 exactly if one of them was lit; DRAW is 1;
DRAW_READ_OOB is emitted exactly if a row's address leaves memory; nothing else changes (R210, R212, R213; reading
the origin first is the spec's decision D13, the unwrapped address D14, the event D25, the orientation D35). -/
def Obligations.DrawFlipsCoveredPixels : Prop :=
  DecodesAs 0xF000 0xD000 (fun w => .drw (fieldX w) (fieldY w) (fieldN w)) ∧
  ∀ (x y n : Nibble) (s : State), ∃ t, exec (.drw x y n) s.advance = .next t ∧
    t = { s.advance with disp := t.disp, draw := true, v := t.v, diag := t.diag } ∧
    (∀ row col (hr : row < 32) (hc : col < 64),
      (t.disp[row][col] ≠ s.disp[row][col] ↔ s.SpriteCovers x y n row col)) ∧
    (∀ j, j ≠ 0xF → t.readV j = s.readV j) ∧ (t.readV 0xF = 0 ∨ t.readV 0xF = 1) ∧
    (t.readV 0xF = 1 ↔ ∃ (row col : Nat) (hr : row < 32) (hc : col < 64),
      s.SpriteCovers x y n row col ∧ s.disp[row][col] = true) ∧
    t.diag = if 1 ≤ n.toNat ∧ 4096 ≤ s.i.toNat + (n.toNat - 1) then s.diag ++ [.drawReadOob] else s.diag

/-- Two consecutive draws of one sprite, with x and y other than 0xF, restore the display, and the second sets VF
exactly if the first lit a pixel (R213, which the spec marks as derived). -/
def Obligations.DrawingTwiceRestores : Prop :=
  ∀ (x y n : Nibble) (s t : State), x ≠ 0xF → y ≠ 0xF → exec (.drw x y n) s.advance = .next t →
    ∃ u, exec (.drw x y n) t.advance = .next u ∧ u.disp = s.disp ∧
      (u.readV 0xF = 1 ↔ ∃ (row col : Nat) (hr : row < 32) (hc : col < 64),
        t.disp[row][col] = true ∧ s.disp[row][col] = false)

/-! ## Keypad -/

/-- Fx0A while no press has been seen (R263; the state AWAIT_PRESS is the spec's decision D17): the lowest pressed
key is recorded in Vx and the latch waits for the release; with none pressed it polls again; PC is back at the
instruction either way, and nothing else changes. -/
def Obligations.KeyWaitSeesPress : Prop :=
  DecodesAs 0xF0FF 0xF00A (fun w => .ldVxK (fieldX w)) ∧
  ∀ (x : Nibble) (s : State), s.kw ≠ .awaitRelease →
    (∀ (k : Nat) (h : k < 16), s.key[k] = true → (∀ j (hj : j < k), s.key[j] = false) →
      ∃ t, exec (.ldVxK x) s.advance = .next t ∧ t = { s with v := t.v, kw := .awaitRelease } ∧
        ∀ j, (t.readV j).toNat = if j = x then k else (s.readV j).toNat) ∧
    ((∀ k (h : k < 16), s.key[k] = false) →
      exec (.ldVxK x) s.advance = .next { s with kw := .awaitPress })

/-- Fx0A while it waits for the release (R263): it completes, with PC at the address plus 2 and the latch IDLE, once
every key is released, and until then changes nothing at all. -/
def Obligations.KeyWaitSeesRelease : Prop :=
  ∀ (x : Nibble) (s : State), s.kw = .awaitRelease →
    ((∀ k (h : k < 16), s.key[k] = false) →
      exec (.ldVxK x) s.advance = .next { s.advance with kw := .idle }) ∧
    ((∃ (k : Nat) (h : k < 16), s.key[k] = true) → exec (.ldVxK x) s.advance = .next s)

/-- A running frame in which no key is pressed and the next instruction is a waiting Fx0A executes nothing else in
all its slots (R264, which the spec marks as derived). -/
def Obligations.KeyWaitBlocksWholeBudget : Prop :=
  ∀ (x : Nibble) (s : State) (count : Nat), s.run = .running → s.fetch = .instr (.ldVxK x) →
    s.kw ≠ .awaitRelease → (∀ k (h : k < 16), s.key[k] = false) →
    runSlots (count + 1) s = .next ({ s with kw := .awaitPress } : State).endFrame

/-- The keypad takes `keys_in` at the start of every frame that is not STOPPED, paused frames included, and keeps it
to the end of the frame (R282). -/
def Obligations.KeypadIsSampledAtFrameStart : Prop :=
  ∀ (s t : State), step s = .next t →
    (s.phase = .between → t.run ≠ .stopped → ∀ k (h : k < 16), t.key[k] = s.nextHostInput.keysIn.getLsbD k) ∧
    (s.phase ≠ .between → t.key = s.key)

/-! ## The frame scheduler -/

/-- The start of a frame that is not STOPPED (R280, R281, R288; the order is the spec's decision D20, the paused
frame's sound D21): exit wins and stops the machine; a frame that is or becomes PAUSED only samples the keypad and
drives the sound; a frame that is or becomes RUNNING has IPF slots to run. -/
def Obligations.FrameStartFollowsHostEdges : Prop :=
  ∀ s : State, s.phase = .between → s.run ≠ .stopped → ∃ t, step s = .next t ∧
    (s.nextHostInput.exitReq = true →
      t = { s with run := .stopped, drawReq := false, soundOn := false, diag := [],
                   hostIn := t.hostIn, frameNo := t.frameNo }) ∧
    (s.nextHostInput.exitReq = false →
      (s.run = .running ↔ s.nextHostInput.pauseToggle = true) →
      t = { s with run := .paused, drawReq := false, soundOn := decide (s.st ≠ 0), diag := [], key := t.key,
                   hostIn := t.hostIn, frameNo := t.frameNo }) ∧
    (s.nextHostInput.exitReq = false →
      ¬ (s.run = .running ↔ s.nextHostInput.pauseToggle = true) →
      t = { s with run := .running, drawReq := false, diag := [], key := t.key, phase := .slots s.params.ipf,
                   hostIn := t.hostIn, frameNo := t.frameNo })

/-- STOPPED is terminal (R289, the spec's decision D22): from there, any number of steps all answer a state that
differs in nothing but the outputs driven to 0 and the frames the host has counted. -/
def Obligations.StoppedIsTerminal : Prop :=
  ∀ (n : Nat) (s : State), s.run = .stopped → s.phase = .between → ∃ t, Sys2Proof.core.run (n + 1) s = .next t ∧
    t = { s with drawReq := false, soundOn := false, diag := [], hostIn := t.hostIn, frameNo := t.frameNo }

/-- The transitions of RUN, complete (R291): pause and exit at a frame's start, a fatal fault in a slot, and no way
out of STOPPED between frames. -/
def Obligations.RunTransitionsAreComplete : Prop :=
  ∀ (s t : State), step s = .next t → t.run ≠ s.run →
    (s.phase = .between ∧ s.run = .running ∧ t.run = .paused ∧ s.nextHostInput.pauseToggle = true) ∨
    (s.phase = .between ∧ s.run = .paused ∧ t.run = .running ∧ s.nextHostInput.pauseToggle = true) ∨
    (s.phase = .between ∧ s.run ≠ .stopped ∧ t.run = .stopped ∧ s.nextHostInput.exitReq = true) ∨
    ((∃ left, s.phase = .slots (left + 1)) ∧ t.run = .stopped ∧ ∃ f, t.fault = some f ∧ f.addr = s.pc)

/-- Both timers go down by one, and not below 0, at the end of a running frame's budget, once; neither changes at a
frame's start, paused and stopped frames included, and in a slot DT changes only by Fx15 and ST only by Fx18
(R285). -/
def Obligations.TimersDecayOncePerFrame : Prop :=
  (∀ s : State, s.phase = .slots 0 → ∃ t, step s = .next t ∧ t.phase = .between ∧
    t.dt.toNat = s.dt.toNat - 1 ∧ t.st.toNat = s.st.toNat - 1) ∧
  (∀ s t : State, s.phase = .between → step s = .next t → t.dt = s.dt ∧ t.st = s.st) ∧
  (∀ (s t : State) (left : Nat), s.phase = .slots (left + 1) → step s = .next t →
    (t.dt ≠ s.dt → ∃ x, s.fetch = .instr (.ldDtVx x) ∧ t.dt = s.readV x) ∧
    (t.st ≠ s.st → ∃ x, s.fetch = .instr (.ldStVx x) ∧ t.st = s.readV x))

/-- The end of a running frame (R286, R287): `draw_req` is DRAW, which is cleared; `sound_on` tells whether the
decremented ST is nonzero; no other state changes but the timers. In the frames of a machine that keeps the frame
discipline, DRAW stays 0 while PAUSED. -/
def Obligations.FrameEndDrivesSignals : Prop :=
  (∀ s : State, s.phase = .slots 0 → ∃ t, step s = .next t ∧ t.drawReq = s.draw ∧
    (t.soundOn = true ↔ 1 < s.st.toNat) ∧
    t = { s with dt := t.dt, st := t.st, draw := false, drawReq := t.drawReq, soundOn := t.soundOn,
                 phase := .between }) ∧
  (∀ s t : State, s.FrameDiscipline → s.phase = .between → step s = .next t → t.run = .paused →
    t.draw = false ∧ t.drawReq = false ∧ t.disp = s.disp)

/-- The steps of the machine carry out the frame step of R280 (whose order of inputs is the spec's decision D20):
from between two frames, at most IPF + 2 of them reach what the frame step in one piece, with the host's input of
that frame, reaches, and that is between two frames again. The cut of a frame into IPF + 2 steps is the model's own
(log entry 1). -/
def Obligations.StepsRefineFrameStep : Prop :=
  ∀ s : State, s.phase = .between → ∃ n t, n ≤ s.params.ipf + 1 ∧
    Sys2Proof.core.run (n + 1) s = .next t ∧ runFrame s.nextHostInput s.afterHostInput = .next t ∧
    t.phase = .between

/-! ## Whole-machine rules -/

/-- The machine always goes on: no step answers a fault or a refusal, in any state. That the fatal faults of R310 are
next states and the type of stops is empty, and that a stopped machine still takes its frames, is the model's choice
(log entries 12 and 14); R311 and R289 give the states. -/
def Obligations.EveryStepAnswersNext : Prop := ∀ s : State, ∃ t, step s = .next t

/-- The writers of the V registers (R34, and Dxyn by R33; the spec marks R34 as derived). -/
def Obligations.OnlyWritersChangeRegisters : Prop :=
  ∀ (s t : State) (j : Nibble), step s = .next t → t.readV j ≠ s.readV j → s.RunsOneOf (fun i => writesV i = true)

/-- The writers of I (R35), of the display (R43), of the call stack (R38) and of KW (R42). The spec marks parts of
these rules as its decisions D1, D15, D17 and D35. -/
def Obligations.OnlyWritersChangeSpecialState : Prop :=
  ∀ (s t : State), step s = .next t →
    (t.i ≠ s.i → s.RunsOneOf WritesI) ∧ (t.disp ≠ s.disp → s.RunsOneOf Draws) ∧
    ((t.stack ≠ s.stack ∨ t.sp ≠ s.sp) → s.RunsOneOf UsesStack) ∧
    (t.kw ≠ s.kw → s.RunsOneOf (fun i => ∃ x, i = .ldVxK x))

/-- "Both 00E0 and Dxyn set it to 1", the scheduler clears it at the end of every running frame, and "no other agent
or instruction changes it" (R44). -/
def Obligations.DrawFlagIsSetAndCleared : Prop :=
  (∀ (i : Instr) (s t : State), Draws i → exec i s.advance = .next t → t.draw = true) ∧
  (∀ (s t : State), s.phase = .slots 0 → step s = .next t → t.drawReq = s.draw ∧ t.draw = false) ∧
  (∀ (s t : State), step s = .next t → t.draw ≠ s.draw →
    s.RunsOneOf Draws ∨ (s.phase = .slots 0 ∧ t.draw = false))

/-- The parameters are not state: no step changes one (R31). The frame's number and the host's inputs advance at a
frame's start only (the model's own fields, log entries 1 and 2). -/
def Obligations.ParametersAndInputsAreNotTouched : Prop :=
  ∀ (s t : State), step s = .next t → t.params = s.params ∧
    (s.phase ≠ .between → t.hostIn = s.hostIn ∧ t.frameNo = s.frameNo) ∧
    (s.phase = .between → t.hostIn = s.hostIn.tail ∧ t.frameNo = s.frameNo + 1)

/-! ## Invariants -/

/-- Every step keeps memory in its canonical form: no cell outside the 4096 bytes, none twice, none equal to what its
address reads as unlisted (R70; the form is the model's, log entry 5). -/
def Obligations.StepKeepsMemoryForm : Prop :=
  ∀ (s t : State), s.MemoryForm → step s = .next t → t.MemoryForm

/-- "PC never exceeds 0x10FE and never wraps" (R37), because no return address exceeds 0x1000 (R39; the spec marks
both as derived): every step keeps the bounds. -/
def Obligations.StepKeepsAddressBounds : Prop :=
  ∀ (s t : State), s.AddressBounds → step s = .next t → t.AddressBounds

/-- Every step keeps the frame discipline: slots run only while RUNNING and never more than IPF remain (R283; the slot
phases are the model's, log entry 1), a recorded fault means STOPPED (R46, R311, the spec's decision D4; log entry 12),
and nothing waits to be drawn between the frames of a machine that is not STOPPED (R286); one that a fault or an exit
stopped may keep DRAW. -/
def Obligations.StepKeepsFrameDiscipline : Prop :=
  ∀ (s t : State), s.FrameDiscipline → step s = .next t → t.FrameDiscipline

/-- "Whenever KW != IDLE at the start of a slot, the word at PC is the Fx0A that set it" (R265, which the spec marks
as derived): every step keeps it. -/
def Obligations.StepKeepsKeyWaitAtPc : Prop :=
  ∀ (s t : State), s.KeyWaitAtPc → step s = .next t → t.KeyWaitAtPc

/-- Every machine a boot creates meets all the invariants, the reset state among them (R48, R340). -/
def Obligations.BootMeetsInvariants : Prop :=
  State.reset.Inv ∧ ∀ (p : Params) (rom : Option (List Byte)) (s : State), boot p rom = .ok s → s.Inv

/-! ## Boot -/

/-- A present image of at most 3584 bytes boots: byte i is at 0x200 + i, FONT is at 0x000 to 0x04F, every other byte
is 0, and every other piece of state is that of `State.bootWith p`, for which ResetValues states R48's values (R340,
R341, R345; the font's place is derived in R342, reset values other than memory, V, I and PC are the spec's decision
D23, the empty image D30). -/
def Obligations.BootLoadsRom : Prop :=
  ∀ (p : Params) (rom : List Byte), rom.length ≤ 3584 → ∃ s, boot p (some rom) = .ok s ∧
    s = { State.bootWith p with mem := s.mem } ∧
    ∀ a, s.readByte a =
      if h : a < 80 then p.font[a]
      else if 0x200 ≤ a then (rom[a - 0x200]?).getD 0
      else 0

/-- A missing image, or one longer than 3584 bytes, fails the boot, and no machine is created (R346); every other image
boots (that the empty one does is the spec's decision D30). -/
def Obligations.MissingOrOversizedRomFails : Prop :=
  ∀ (p : Params) (rom : Option (List Byte)),
    (boot p rom = .error .romLoadFailure ↔ rom = none ∨ ∃ bytes, rom = some bytes ∧ 3584 < bytes.length) ∧
    ((∃ s, boot p rom = .ok s) ↔ ∃ bytes, rom = some bytes ∧ bytes.length ≤ 3584)

/-- The values of R48 after boot, before the program image is written, under every value of the parameters, and so at
reset: those the source states, memory, V, I and PC, and those the spec's decision D23 fixes (log entry 9). -/
def Obligations.ResetValues : Prop :=
  State.reset = State.bootWith Params.default ∧
  ∀ p : Params,
    let s := State.bootWith p
    (∀ j, s.readV j = 0) ∧ s.i = 0 ∧ s.pc = 0x200 ∧
    (∀ a, 80 ≤ a → s.readByte a = 0) ∧ (∀ a (h : a < 80), s.readByte a = p.font[a]) ∧
    s.sp.val = 0 ∧ (∀ j (h : j < 16), s.stack[j] = 0) ∧ s.dt = 0 ∧ s.st = 0 ∧
    (∀ k, s.keyDown k = false) ∧ s.kw = .idle ∧
    (∀ row col (hr : row < 32) (hc : col < 64), s.disp[row][col] = false) ∧
    s.draw = false ∧ s.run = .running ∧ s.fault = none
end

