-- ==== Sys2Proof/Laws/State.lean ====
section
/-! SUPPORT. One lemma per field per named update of State: what each leaves and what it sets. -/

namespace Sys2Proof.Machine

section
variable (s : State)

@[simp] theorem State.setV_mem (x : Nibble) (b : Byte) : (s.setV x b).mem = s.mem := rfl
@[simp] theorem State.setV_v (x : Nibble) (b : Byte) : (s.setV x b).v = s.v.set x.toNat b x.isLt := rfl
@[simp] theorem State.setV_i (x : Nibble) (b : Byte) : (s.setV x b).i = s.i := rfl
@[simp] theorem State.setV_pc (x : Nibble) (b : Byte) : (s.setV x b).pc = s.pc := rfl
@[simp] theorem State.setV_stack (x : Nibble) (b : Byte) : (s.setV x b).stack = s.stack := rfl
@[simp] theorem State.setV_sp (x : Nibble) (b : Byte) : (s.setV x b).sp = s.sp := rfl
@[simp] theorem State.setV_dt (x : Nibble) (b : Byte) : (s.setV x b).dt = s.dt := rfl
@[simp] theorem State.setV_st (x : Nibble) (b : Byte) : (s.setV x b).st = s.st := rfl
@[simp] theorem State.setV_key (x : Nibble) (b : Byte) : (s.setV x b).key = s.key := rfl
@[simp] theorem State.setV_kw (x : Nibble) (b : Byte) : (s.setV x b).kw = s.kw := rfl
@[simp] theorem State.setV_disp (x : Nibble) (b : Byte) : (s.setV x b).disp = s.disp := rfl
@[simp] theorem State.setV_draw (x : Nibble) (b : Byte) : (s.setV x b).draw = s.draw := rfl
@[simp] theorem State.setV_run (x : Nibble) (b : Byte) : (s.setV x b).run = s.run := rfl
@[simp] theorem State.setV_fault (x : Nibble) (b : Byte) : (s.setV x b).fault = s.fault := rfl
@[simp] theorem State.setV_drawReq (x : Nibble) (b : Byte) : (s.setV x b).drawReq = s.drawReq := rfl
@[simp] theorem State.setV_soundOn (x : Nibble) (b : Byte) : (s.setV x b).soundOn = s.soundOn := rfl
@[simp] theorem State.setV_diag (x : Nibble) (b : Byte) : (s.setV x b).diag = s.diag := rfl
@[simp] theorem State.setV_phase (x : Nibble) (b : Byte) : (s.setV x b).phase = s.phase := rfl
@[simp] theorem State.setV_hostIn (x : Nibble) (b : Byte) : (s.setV x b).hostIn = s.hostIn := rfl
@[simp] theorem State.setV_frameNo (x : Nibble) (b : Byte) : (s.setV x b).frameNo = s.frameNo := rfl
@[simp] theorem State.setV_rndIn (x : Nibble) (b : Byte) : (s.setV x b).rndIn = s.rndIn := rfl
@[simp] theorem State.setV_drawNo (x : Nibble) (b : Byte) : (s.setV x b).drawNo = s.drawNo := rfl
@[simp] theorem State.setV_params (x : Nibble) (b : Byte) : (s.setV x b).params = s.params := rfl

@[simp] theorem State.setI_mem (w : Word) : (s.setI w).mem = s.mem := rfl
@[simp] theorem State.setI_v (w : Word) : (s.setI w).v = s.v := rfl
@[simp] theorem State.setI_i (w : Word) : (s.setI w).i = w := rfl
@[simp] theorem State.setI_pc (w : Word) : (s.setI w).pc = s.pc := rfl
@[simp] theorem State.setI_stack (w : Word) : (s.setI w).stack = s.stack := rfl
@[simp] theorem State.setI_sp (w : Word) : (s.setI w).sp = s.sp := rfl
@[simp] theorem State.setI_dt (w : Word) : (s.setI w).dt = s.dt := rfl
@[simp] theorem State.setI_st (w : Word) : (s.setI w).st = s.st := rfl
@[simp] theorem State.setI_key (w : Word) : (s.setI w).key = s.key := rfl
@[simp] theorem State.setI_kw (w : Word) : (s.setI w).kw = s.kw := rfl
@[simp] theorem State.setI_disp (w : Word) : (s.setI w).disp = s.disp := rfl
@[simp] theorem State.setI_draw (w : Word) : (s.setI w).draw = s.draw := rfl
@[simp] theorem State.setI_run (w : Word) : (s.setI w).run = s.run := rfl
@[simp] theorem State.setI_fault (w : Word) : (s.setI w).fault = s.fault := rfl
@[simp] theorem State.setI_drawReq (w : Word) : (s.setI w).drawReq = s.drawReq := rfl
@[simp] theorem State.setI_soundOn (w : Word) : (s.setI w).soundOn = s.soundOn := rfl
@[simp] theorem State.setI_diag (w : Word) : (s.setI w).diag = s.diag := rfl
@[simp] theorem State.setI_phase (w : Word) : (s.setI w).phase = s.phase := rfl
@[simp] theorem State.setI_hostIn (w : Word) : (s.setI w).hostIn = s.hostIn := rfl
@[simp] theorem State.setI_frameNo (w : Word) : (s.setI w).frameNo = s.frameNo := rfl
@[simp] theorem State.setI_rndIn (w : Word) : (s.setI w).rndIn = s.rndIn := rfl
@[simp] theorem State.setI_drawNo (w : Word) : (s.setI w).drawNo = s.drawNo := rfl
@[simp] theorem State.setI_params (w : Word) : (s.setI w).params = s.params := rfl

@[simp] theorem State.setPc_mem (w : Word) : (s.setPc w).mem = s.mem := rfl
@[simp] theorem State.setPc_v (w : Word) : (s.setPc w).v = s.v := rfl
@[simp] theorem State.setPc_i (w : Word) : (s.setPc w).i = s.i := rfl
@[simp] theorem State.setPc_pc (w : Word) : (s.setPc w).pc = w := rfl
@[simp] theorem State.setPc_stack (w : Word) : (s.setPc w).stack = s.stack := rfl
@[simp] theorem State.setPc_sp (w : Word) : (s.setPc w).sp = s.sp := rfl
@[simp] theorem State.setPc_dt (w : Word) : (s.setPc w).dt = s.dt := rfl
@[simp] theorem State.setPc_st (w : Word) : (s.setPc w).st = s.st := rfl
@[simp] theorem State.setPc_key (w : Word) : (s.setPc w).key = s.key := rfl
@[simp] theorem State.setPc_kw (w : Word) : (s.setPc w).kw = s.kw := rfl
@[simp] theorem State.setPc_disp (w : Word) : (s.setPc w).disp = s.disp := rfl
@[simp] theorem State.setPc_draw (w : Word) : (s.setPc w).draw = s.draw := rfl
@[simp] theorem State.setPc_run (w : Word) : (s.setPc w).run = s.run := rfl
@[simp] theorem State.setPc_fault (w : Word) : (s.setPc w).fault = s.fault := rfl
@[simp] theorem State.setPc_drawReq (w : Word) : (s.setPc w).drawReq = s.drawReq := rfl
@[simp] theorem State.setPc_soundOn (w : Word) : (s.setPc w).soundOn = s.soundOn := rfl
@[simp] theorem State.setPc_diag (w : Word) : (s.setPc w).diag = s.diag := rfl
@[simp] theorem State.setPc_phase (w : Word) : (s.setPc w).phase = s.phase := rfl
@[simp] theorem State.setPc_hostIn (w : Word) : (s.setPc w).hostIn = s.hostIn := rfl
@[simp] theorem State.setPc_frameNo (w : Word) : (s.setPc w).frameNo = s.frameNo := rfl
@[simp] theorem State.setPc_rndIn (w : Word) : (s.setPc w).rndIn = s.rndIn := rfl
@[simp] theorem State.setPc_drawNo (w : Word) : (s.setPc w).drawNo = s.drawNo := rfl
@[simp] theorem State.setPc_params (w : Word) : (s.setPc w).params = s.params := rfl

@[simp] theorem State.pushPc_mem (h : s.sp.val < 16) : (s.pushPc h).mem = s.mem := rfl
@[simp] theorem State.pushPc_v (h : s.sp.val < 16) : (s.pushPc h).v = s.v := rfl
@[simp] theorem State.pushPc_i (h : s.sp.val < 16) : (s.pushPc h).i = s.i := rfl
@[simp] theorem State.pushPc_pc (h : s.sp.val < 16) : (s.pushPc h).pc = s.pc := rfl
@[simp] theorem State.pushPc_stack (h : s.sp.val < 16) : (s.pushPc h).stack = s.stack.set s.sp.val s.pc h := rfl
@[simp] theorem State.pushPc_sp (h : s.sp.val < 16) : (s.pushPc h).sp = ⟨s.sp.val + 1, by omega⟩ := rfl
@[simp] theorem State.pushPc_dt (h : s.sp.val < 16) : (s.pushPc h).dt = s.dt := rfl
@[simp] theorem State.pushPc_st (h : s.sp.val < 16) : (s.pushPc h).st = s.st := rfl
@[simp] theorem State.pushPc_key (h : s.sp.val < 16) : (s.pushPc h).key = s.key := rfl
@[simp] theorem State.pushPc_kw (h : s.sp.val < 16) : (s.pushPc h).kw = s.kw := rfl
@[simp] theorem State.pushPc_disp (h : s.sp.val < 16) : (s.pushPc h).disp = s.disp := rfl
@[simp] theorem State.pushPc_draw (h : s.sp.val < 16) : (s.pushPc h).draw = s.draw := rfl
@[simp] theorem State.pushPc_run (h : s.sp.val < 16) : (s.pushPc h).run = s.run := rfl
@[simp] theorem State.pushPc_fault (h : s.sp.val < 16) : (s.pushPc h).fault = s.fault := rfl
@[simp] theorem State.pushPc_drawReq (h : s.sp.val < 16) : (s.pushPc h).drawReq = s.drawReq := rfl
@[simp] theorem State.pushPc_soundOn (h : s.sp.val < 16) : (s.pushPc h).soundOn = s.soundOn := rfl
@[simp] theorem State.pushPc_diag (h : s.sp.val < 16) : (s.pushPc h).diag = s.diag := rfl
@[simp] theorem State.pushPc_phase (h : s.sp.val < 16) : (s.pushPc h).phase = s.phase := rfl
@[simp] theorem State.pushPc_hostIn (h : s.sp.val < 16) : (s.pushPc h).hostIn = s.hostIn := rfl
@[simp] theorem State.pushPc_frameNo (h : s.sp.val < 16) : (s.pushPc h).frameNo = s.frameNo := rfl
@[simp] theorem State.pushPc_rndIn (h : s.sp.val < 16) : (s.pushPc h).rndIn = s.rndIn := rfl
@[simp] theorem State.pushPc_drawNo (h : s.sp.val < 16) : (s.pushPc h).drawNo = s.drawNo := rfl
@[simp] theorem State.pushPc_params (h : s.sp.val < 16) : (s.pushPc h).params = s.params := rfl

@[simp] theorem State.popPc_mem (h : s.sp.val ≠ 0) : (s.popPc h).mem = s.mem := rfl
@[simp] theorem State.popPc_v (h : s.sp.val ≠ 0) : (s.popPc h).v = s.v := rfl
@[simp] theorem State.popPc_i (h : s.sp.val ≠ 0) : (s.popPc h).i = s.i := rfl
@[simp] theorem State.popPc_pc (h : s.sp.val ≠ 0) : (s.popPc h).pc = s.stack[s.sp.val - 1]'(by omega) := rfl
@[simp] theorem State.popPc_stack (h : s.sp.val ≠ 0) : (s.popPc h).stack = s.stack := rfl
@[simp] theorem State.popPc_sp (h : s.sp.val ≠ 0) : (s.popPc h).sp = ⟨s.sp.val - 1, by omega⟩ := rfl
@[simp] theorem State.popPc_dt (h : s.sp.val ≠ 0) : (s.popPc h).dt = s.dt := rfl
@[simp] theorem State.popPc_st (h : s.sp.val ≠ 0) : (s.popPc h).st = s.st := rfl
@[simp] theorem State.popPc_key (h : s.sp.val ≠ 0) : (s.popPc h).key = s.key := rfl
@[simp] theorem State.popPc_kw (h : s.sp.val ≠ 0) : (s.popPc h).kw = s.kw := rfl
@[simp] theorem State.popPc_disp (h : s.sp.val ≠ 0) : (s.popPc h).disp = s.disp := rfl
@[simp] theorem State.popPc_draw (h : s.sp.val ≠ 0) : (s.popPc h).draw = s.draw := rfl
@[simp] theorem State.popPc_run (h : s.sp.val ≠ 0) : (s.popPc h).run = s.run := rfl
@[simp] theorem State.popPc_fault (h : s.sp.val ≠ 0) : (s.popPc h).fault = s.fault := rfl
@[simp] theorem State.popPc_drawReq (h : s.sp.val ≠ 0) : (s.popPc h).drawReq = s.drawReq := rfl
@[simp] theorem State.popPc_soundOn (h : s.sp.val ≠ 0) : (s.popPc h).soundOn = s.soundOn := rfl
@[simp] theorem State.popPc_diag (h : s.sp.val ≠ 0) : (s.popPc h).diag = s.diag := rfl
@[simp] theorem State.popPc_phase (h : s.sp.val ≠ 0) : (s.popPc h).phase = s.phase := rfl
@[simp] theorem State.popPc_hostIn (h : s.sp.val ≠ 0) : (s.popPc h).hostIn = s.hostIn := rfl
@[simp] theorem State.popPc_frameNo (h : s.sp.val ≠ 0) : (s.popPc h).frameNo = s.frameNo := rfl
@[simp] theorem State.popPc_rndIn (h : s.sp.val ≠ 0) : (s.popPc h).rndIn = s.rndIn := rfl
@[simp] theorem State.popPc_drawNo (h : s.sp.val ≠ 0) : (s.popPc h).drawNo = s.drawNo := rfl
@[simp] theorem State.popPc_params (h : s.sp.val ≠ 0) : (s.popPc h).params = s.params := rfl

@[simp] theorem State.setKw_mem (w : KeyWait) : (s.setKw w).mem = s.mem := rfl
@[simp] theorem State.setKw_v (w : KeyWait) : (s.setKw w).v = s.v := rfl
@[simp] theorem State.setKw_i (w : KeyWait) : (s.setKw w).i = s.i := rfl
@[simp] theorem State.setKw_pc (w : KeyWait) : (s.setKw w).pc = s.pc := rfl
@[simp] theorem State.setKw_stack (w : KeyWait) : (s.setKw w).stack = s.stack := rfl
@[simp] theorem State.setKw_sp (w : KeyWait) : (s.setKw w).sp = s.sp := rfl
@[simp] theorem State.setKw_dt (w : KeyWait) : (s.setKw w).dt = s.dt := rfl
@[simp] theorem State.setKw_st (w : KeyWait) : (s.setKw w).st = s.st := rfl
@[simp] theorem State.setKw_key (w : KeyWait) : (s.setKw w).key = s.key := rfl
@[simp] theorem State.setKw_kw (w : KeyWait) : (s.setKw w).kw = w := rfl
@[simp] theorem State.setKw_disp (w : KeyWait) : (s.setKw w).disp = s.disp := rfl
@[simp] theorem State.setKw_draw (w : KeyWait) : (s.setKw w).draw = s.draw := rfl
@[simp] theorem State.setKw_run (w : KeyWait) : (s.setKw w).run = s.run := rfl
@[simp] theorem State.setKw_fault (w : KeyWait) : (s.setKw w).fault = s.fault := rfl
@[simp] theorem State.setKw_drawReq (w : KeyWait) : (s.setKw w).drawReq = s.drawReq := rfl
@[simp] theorem State.setKw_soundOn (w : KeyWait) : (s.setKw w).soundOn = s.soundOn := rfl
@[simp] theorem State.setKw_diag (w : KeyWait) : (s.setKw w).diag = s.diag := rfl
@[simp] theorem State.setKw_phase (w : KeyWait) : (s.setKw w).phase = s.phase := rfl
@[simp] theorem State.setKw_hostIn (w : KeyWait) : (s.setKw w).hostIn = s.hostIn := rfl
@[simp] theorem State.setKw_frameNo (w : KeyWait) : (s.setKw w).frameNo = s.frameNo := rfl
@[simp] theorem State.setKw_rndIn (w : KeyWait) : (s.setKw w).rndIn = s.rndIn := rfl
@[simp] theorem State.setKw_drawNo (w : KeyWait) : (s.setKw w).drawNo = s.drawNo := rfl
@[simp] theorem State.setKw_params (w : KeyWait) : (s.setKw w).params = s.params := rfl

@[simp] theorem State.showDisplay_mem (d : Display) : (s.showDisplay d).mem = s.mem := rfl
@[simp] theorem State.showDisplay_v (d : Display) : (s.showDisplay d).v = s.v := rfl
@[simp] theorem State.showDisplay_i (d : Display) : (s.showDisplay d).i = s.i := rfl
@[simp] theorem State.showDisplay_pc (d : Display) : (s.showDisplay d).pc = s.pc := rfl
@[simp] theorem State.showDisplay_stack (d : Display) : (s.showDisplay d).stack = s.stack := rfl
@[simp] theorem State.showDisplay_sp (d : Display) : (s.showDisplay d).sp = s.sp := rfl
@[simp] theorem State.showDisplay_dt (d : Display) : (s.showDisplay d).dt = s.dt := rfl
@[simp] theorem State.showDisplay_st (d : Display) : (s.showDisplay d).st = s.st := rfl
@[simp] theorem State.showDisplay_key (d : Display) : (s.showDisplay d).key = s.key := rfl
@[simp] theorem State.showDisplay_kw (d : Display) : (s.showDisplay d).kw = s.kw := rfl
@[simp] theorem State.showDisplay_disp (d : Display) : (s.showDisplay d).disp = d := rfl
@[simp] theorem State.showDisplay_draw (d : Display) : (s.showDisplay d).draw = true := rfl
@[simp] theorem State.showDisplay_run (d : Display) : (s.showDisplay d).run = s.run := rfl
@[simp] theorem State.showDisplay_fault (d : Display) : (s.showDisplay d).fault = s.fault := rfl
@[simp] theorem State.showDisplay_drawReq (d : Display) : (s.showDisplay d).drawReq = s.drawReq := rfl
@[simp] theorem State.showDisplay_soundOn (d : Display) : (s.showDisplay d).soundOn = s.soundOn := rfl
@[simp] theorem State.showDisplay_diag (d : Display) : (s.showDisplay d).diag = s.diag := rfl
@[simp] theorem State.showDisplay_phase (d : Display) : (s.showDisplay d).phase = s.phase := rfl
@[simp] theorem State.showDisplay_hostIn (d : Display) : (s.showDisplay d).hostIn = s.hostIn := rfl
@[simp] theorem State.showDisplay_frameNo (d : Display) : (s.showDisplay d).frameNo = s.frameNo := rfl
@[simp] theorem State.showDisplay_rndIn (d : Display) : (s.showDisplay d).rndIn = s.rndIn := rfl
@[simp] theorem State.showDisplay_drawNo (d : Display) : (s.showDisplay d).drawNo = s.drawNo := rfl
@[simp] theorem State.showDisplay_params (d : Display) : (s.showDisplay d).params = s.params := rfl

@[simp] theorem State.emit_mem (e : DiagEvent) : (s.emit e).mem = s.mem := rfl
@[simp] theorem State.emit_v (e : DiagEvent) : (s.emit e).v = s.v := rfl
@[simp] theorem State.emit_i (e : DiagEvent) : (s.emit e).i = s.i := rfl
@[simp] theorem State.emit_pc (e : DiagEvent) : (s.emit e).pc = s.pc := rfl
@[simp] theorem State.emit_stack (e : DiagEvent) : (s.emit e).stack = s.stack := rfl
@[simp] theorem State.emit_sp (e : DiagEvent) : (s.emit e).sp = s.sp := rfl
@[simp] theorem State.emit_dt (e : DiagEvent) : (s.emit e).dt = s.dt := rfl
@[simp] theorem State.emit_st (e : DiagEvent) : (s.emit e).st = s.st := rfl
@[simp] theorem State.emit_key (e : DiagEvent) : (s.emit e).key = s.key := rfl
@[simp] theorem State.emit_kw (e : DiagEvent) : (s.emit e).kw = s.kw := rfl
@[simp] theorem State.emit_disp (e : DiagEvent) : (s.emit e).disp = s.disp := rfl
@[simp] theorem State.emit_draw (e : DiagEvent) : (s.emit e).draw = s.draw := rfl
@[simp] theorem State.emit_run (e : DiagEvent) : (s.emit e).run = s.run := rfl
@[simp] theorem State.emit_fault (e : DiagEvent) : (s.emit e).fault = s.fault := rfl
@[simp] theorem State.emit_drawReq (e : DiagEvent) : (s.emit e).drawReq = s.drawReq := rfl
@[simp] theorem State.emit_soundOn (e : DiagEvent) : (s.emit e).soundOn = s.soundOn := rfl
@[simp] theorem State.emit_diag (e : DiagEvent) : (s.emit e).diag = s.diag ++ [e] := rfl
@[simp] theorem State.emit_phase (e : DiagEvent) : (s.emit e).phase = s.phase := rfl
@[simp] theorem State.emit_hostIn (e : DiagEvent) : (s.emit e).hostIn = s.hostIn := rfl
@[simp] theorem State.emit_frameNo (e : DiagEvent) : (s.emit e).frameNo = s.frameNo := rfl
@[simp] theorem State.emit_rndIn (e : DiagEvent) : (s.emit e).rndIn = s.rndIn := rfl
@[simp] theorem State.emit_drawNo (e : DiagEvent) : (s.emit e).drawNo = s.drawNo := rfl
@[simp] theorem State.emit_params (e : DiagEvent) : (s.emit e).params = s.params := rfl

@[simp] theorem State.afterRnd_mem : s.afterRnd.mem = s.mem := rfl
@[simp] theorem State.afterRnd_v : s.afterRnd.v = s.v := rfl
@[simp] theorem State.afterRnd_i : s.afterRnd.i = s.i := rfl
@[simp] theorem State.afterRnd_pc : s.afterRnd.pc = s.pc := rfl
@[simp] theorem State.afterRnd_stack : s.afterRnd.stack = s.stack := rfl
@[simp] theorem State.afterRnd_sp : s.afterRnd.sp = s.sp := rfl
@[simp] theorem State.afterRnd_dt : s.afterRnd.dt = s.dt := rfl
@[simp] theorem State.afterRnd_st : s.afterRnd.st = s.st := rfl
@[simp] theorem State.afterRnd_key : s.afterRnd.key = s.key := rfl
@[simp] theorem State.afterRnd_kw : s.afterRnd.kw = s.kw := rfl
@[simp] theorem State.afterRnd_disp : s.afterRnd.disp = s.disp := rfl
@[simp] theorem State.afterRnd_draw : s.afterRnd.draw = s.draw := rfl
@[simp] theorem State.afterRnd_run : s.afterRnd.run = s.run := rfl
@[simp] theorem State.afterRnd_fault : s.afterRnd.fault = s.fault := rfl
@[simp] theorem State.afterRnd_drawReq : s.afterRnd.drawReq = s.drawReq := rfl
@[simp] theorem State.afterRnd_soundOn : s.afterRnd.soundOn = s.soundOn := rfl
@[simp] theorem State.afterRnd_diag : s.afterRnd.diag = s.diag := rfl
@[simp] theorem State.afterRnd_phase : s.afterRnd.phase = s.phase := rfl
@[simp] theorem State.afterRnd_hostIn : s.afterRnd.hostIn = s.hostIn := rfl
@[simp] theorem State.afterRnd_frameNo : s.afterRnd.frameNo = s.frameNo := rfl
@[simp] theorem State.afterRnd_rndIn : s.afterRnd.rndIn = s.rndIn.tail := rfl
@[simp] theorem State.afterRnd_drawNo : s.afterRnd.drawNo = s.drawNo + 1 := rfl
@[simp] theorem State.afterRnd_params : s.afterRnd.params = s.params := rfl

@[simp] theorem State.raiseFaultAt_mem (c : FaultCode) (a : Word) : (s.raiseFaultAt c a).mem = s.mem := rfl
@[simp] theorem State.raiseFaultAt_v (c : FaultCode) (a : Word) : (s.raiseFaultAt c a).v = s.v := rfl
@[simp] theorem State.raiseFaultAt_i (c : FaultCode) (a : Word) : (s.raiseFaultAt c a).i = s.i := rfl
@[simp] theorem State.raiseFaultAt_pc (c : FaultCode) (a : Word) : (s.raiseFaultAt c a).pc = a := rfl
@[simp] theorem State.raiseFaultAt_stack (c : FaultCode) (a : Word) : (s.raiseFaultAt c a).stack = s.stack := rfl
@[simp] theorem State.raiseFaultAt_sp (c : FaultCode) (a : Word) : (s.raiseFaultAt c a).sp = s.sp := rfl
@[simp] theorem State.raiseFaultAt_dt (c : FaultCode) (a : Word) : (s.raiseFaultAt c a).dt = s.dt := rfl
@[simp] theorem State.raiseFaultAt_st (c : FaultCode) (a : Word) : (s.raiseFaultAt c a).st = s.st := rfl
@[simp] theorem State.raiseFaultAt_key (c : FaultCode) (a : Word) : (s.raiseFaultAt c a).key = s.key := rfl
@[simp] theorem State.raiseFaultAt_kw (c : FaultCode) (a : Word) : (s.raiseFaultAt c a).kw = s.kw := rfl
@[simp] theorem State.raiseFaultAt_disp (c : FaultCode) (a : Word) : (s.raiseFaultAt c a).disp = s.disp := rfl
@[simp] theorem State.raiseFaultAt_draw (c : FaultCode) (a : Word) : (s.raiseFaultAt c a).draw = s.draw := rfl
@[simp] theorem State.raiseFaultAt_run (c : FaultCode) (a : Word) : (s.raiseFaultAt c a).run = .stopped := rfl
@[simp] theorem State.raiseFaultAt_fault (c : FaultCode) (a : Word) : (s.raiseFaultAt c a).fault = some ⟨c, a⟩ := rfl
@[simp] theorem State.raiseFaultAt_drawReq (c : FaultCode) (a : Word) : (s.raiseFaultAt c a).drawReq = false := rfl
@[simp] theorem State.raiseFaultAt_soundOn (c : FaultCode) (a : Word) : (s.raiseFaultAt c a).soundOn = false := rfl
@[simp] theorem State.raiseFaultAt_diag (c : FaultCode) (a : Word) : (s.raiseFaultAt c a).diag = s.diag := rfl
@[simp] theorem State.raiseFaultAt_phase (c : FaultCode) (a : Word) : (s.raiseFaultAt c a).phase = .between := rfl
@[simp] theorem State.raiseFaultAt_hostIn (c : FaultCode) (a : Word) : (s.raiseFaultAt c a).hostIn = s.hostIn := rfl
@[simp] theorem State.raiseFaultAt_frameNo (c : FaultCode) (a : Word) : (s.raiseFaultAt c a).frameNo = s.frameNo := rfl
@[simp] theorem State.raiseFaultAt_rndIn (c : FaultCode) (a : Word) : (s.raiseFaultAt c a).rndIn = s.rndIn := rfl
@[simp] theorem State.raiseFaultAt_drawNo (c : FaultCode) (a : Word) : (s.raiseFaultAt c a).drawNo = s.drawNo := rfl
@[simp] theorem State.raiseFaultAt_params (c : FaultCode) (a : Word) : (s.raiseFaultAt c a).params = s.params := rfl

@[simp] theorem State.writeByte_mem (a : Nat) (b : Byte) : (s.writeByte a b).mem = Memory.write s.params.font s.mem a b := rfl
@[simp] theorem State.writeByte_v (a : Nat) (b : Byte) : (s.writeByte a b).v = s.v := rfl
@[simp] theorem State.writeByte_i (a : Nat) (b : Byte) : (s.writeByte a b).i = s.i := rfl
@[simp] theorem State.writeByte_pc (a : Nat) (b : Byte) : (s.writeByte a b).pc = s.pc := rfl
@[simp] theorem State.writeByte_stack (a : Nat) (b : Byte) : (s.writeByte a b).stack = s.stack := rfl
@[simp] theorem State.writeByte_sp (a : Nat) (b : Byte) : (s.writeByte a b).sp = s.sp := rfl
@[simp] theorem State.writeByte_dt (a : Nat) (b : Byte) : (s.writeByte a b).dt = s.dt := rfl
@[simp] theorem State.writeByte_st (a : Nat) (b : Byte) : (s.writeByte a b).st = s.st := rfl
@[simp] theorem State.writeByte_key (a : Nat) (b : Byte) : (s.writeByte a b).key = s.key := rfl
@[simp] theorem State.writeByte_kw (a : Nat) (b : Byte) : (s.writeByte a b).kw = s.kw := rfl
@[simp] theorem State.writeByte_disp (a : Nat) (b : Byte) : (s.writeByte a b).disp = s.disp := rfl
@[simp] theorem State.writeByte_draw (a : Nat) (b : Byte) : (s.writeByte a b).draw = s.draw := rfl
@[simp] theorem State.writeByte_run (a : Nat) (b : Byte) : (s.writeByte a b).run = s.run := rfl
@[simp] theorem State.writeByte_fault (a : Nat) (b : Byte) : (s.writeByte a b).fault = s.fault := rfl
@[simp] theorem State.writeByte_drawReq (a : Nat) (b : Byte) : (s.writeByte a b).drawReq = s.drawReq := rfl
@[simp] theorem State.writeByte_soundOn (a : Nat) (b : Byte) : (s.writeByte a b).soundOn = s.soundOn := rfl
@[simp] theorem State.writeByte_diag (a : Nat) (b : Byte) : (s.writeByte a b).diag = s.diag := rfl
@[simp] theorem State.writeByte_phase (a : Nat) (b : Byte) : (s.writeByte a b).phase = s.phase := rfl
@[simp] theorem State.writeByte_hostIn (a : Nat) (b : Byte) : (s.writeByte a b).hostIn = s.hostIn := rfl
@[simp] theorem State.writeByte_frameNo (a : Nat) (b : Byte) : (s.writeByte a b).frameNo = s.frameNo := rfl
@[simp] theorem State.writeByte_rndIn (a : Nat) (b : Byte) : (s.writeByte a b).rndIn = s.rndIn := rfl
@[simp] theorem State.writeByte_drawNo (a : Nat) (b : Byte) : (s.writeByte a b).drawNo = s.drawNo := rfl
@[simp] theorem State.writeByte_params (a : Nat) (b : Byte) : (s.writeByte a b).params = s.params := rfl

@[simp] theorem State.takeSlot_mem (n : Nat) : (s.takeSlot n).mem = s.mem := rfl
@[simp] theorem State.takeSlot_v (n : Nat) : (s.takeSlot n).v = s.v := rfl
@[simp] theorem State.takeSlot_i (n : Nat) : (s.takeSlot n).i = s.i := rfl
@[simp] theorem State.takeSlot_pc (n : Nat) : (s.takeSlot n).pc = s.pc := rfl
@[simp] theorem State.takeSlot_stack (n : Nat) : (s.takeSlot n).stack = s.stack := rfl
@[simp] theorem State.takeSlot_sp (n : Nat) : (s.takeSlot n).sp = s.sp := rfl
@[simp] theorem State.takeSlot_dt (n : Nat) : (s.takeSlot n).dt = s.dt := rfl
@[simp] theorem State.takeSlot_st (n : Nat) : (s.takeSlot n).st = s.st := rfl
@[simp] theorem State.takeSlot_key (n : Nat) : (s.takeSlot n).key = s.key := rfl
@[simp] theorem State.takeSlot_kw (n : Nat) : (s.takeSlot n).kw = s.kw := rfl
@[simp] theorem State.takeSlot_disp (n : Nat) : (s.takeSlot n).disp = s.disp := rfl
@[simp] theorem State.takeSlot_draw (n : Nat) : (s.takeSlot n).draw = s.draw := rfl
@[simp] theorem State.takeSlot_run (n : Nat) : (s.takeSlot n).run = s.run := rfl
@[simp] theorem State.takeSlot_fault (n : Nat) : (s.takeSlot n).fault = s.fault := rfl
@[simp] theorem State.takeSlot_drawReq (n : Nat) : (s.takeSlot n).drawReq = s.drawReq := rfl
@[simp] theorem State.takeSlot_soundOn (n : Nat) : (s.takeSlot n).soundOn = s.soundOn := rfl
@[simp] theorem State.takeSlot_diag (n : Nat) : (s.takeSlot n).diag = s.diag := rfl
@[simp] theorem State.takeSlot_phase (n : Nat) : (s.takeSlot n).phase = .slots n := rfl
@[simp] theorem State.takeSlot_hostIn (n : Nat) : (s.takeSlot n).hostIn = s.hostIn := rfl
@[simp] theorem State.takeSlot_frameNo (n : Nat) : (s.takeSlot n).frameNo = s.frameNo := rfl
@[simp] theorem State.takeSlot_rndIn (n : Nat) : (s.takeSlot n).rndIn = s.rndIn := rfl
@[simp] theorem State.takeSlot_drawNo (n : Nat) : (s.takeSlot n).drawNo = s.drawNo := rfl
@[simp] theorem State.takeSlot_params (n : Nat) : (s.takeSlot n).params = s.params := rfl

@[simp] theorem State.afterHostInput_mem : s.afterHostInput.mem = s.mem := rfl
@[simp] theorem State.afterHostInput_v : s.afterHostInput.v = s.v := rfl
@[simp] theorem State.afterHostInput_i : s.afterHostInput.i = s.i := rfl
@[simp] theorem State.afterHostInput_pc : s.afterHostInput.pc = s.pc := rfl
@[simp] theorem State.afterHostInput_stack : s.afterHostInput.stack = s.stack := rfl
@[simp] theorem State.afterHostInput_sp : s.afterHostInput.sp = s.sp := rfl
@[simp] theorem State.afterHostInput_dt : s.afterHostInput.dt = s.dt := rfl
@[simp] theorem State.afterHostInput_st : s.afterHostInput.st = s.st := rfl
@[simp] theorem State.afterHostInput_key : s.afterHostInput.key = s.key := rfl
@[simp] theorem State.afterHostInput_kw : s.afterHostInput.kw = s.kw := rfl
@[simp] theorem State.afterHostInput_disp : s.afterHostInput.disp = s.disp := rfl
@[simp] theorem State.afterHostInput_draw : s.afterHostInput.draw = s.draw := rfl
@[simp] theorem State.afterHostInput_run : s.afterHostInput.run = s.run := rfl
@[simp] theorem State.afterHostInput_fault : s.afterHostInput.fault = s.fault := rfl
@[simp] theorem State.afterHostInput_drawReq : s.afterHostInput.drawReq = s.drawReq := rfl
@[simp] theorem State.afterHostInput_soundOn : s.afterHostInput.soundOn = s.soundOn := rfl
@[simp] theorem State.afterHostInput_diag : s.afterHostInput.diag = s.diag := rfl
@[simp] theorem State.afterHostInput_phase : s.afterHostInput.phase = s.phase := rfl
@[simp] theorem State.afterHostInput_hostIn : s.afterHostInput.hostIn = s.hostIn.tail := rfl
@[simp] theorem State.afterHostInput_frameNo : s.afterHostInput.frameNo = s.frameNo + 1 := rfl
@[simp] theorem State.afterHostInput_rndIn : s.afterHostInput.rndIn = s.rndIn := rfl
@[simp] theorem State.afterHostInput_drawNo : s.afterHostInput.drawNo = s.drawNo := rfl
@[simp] theorem State.afterHostInput_params : s.afterHostInput.params = s.params := rfl

theorem State.advance_eq : s.advance = s.setPc (s.pc + 2) := rfl
theorem State.rewind_eq : s.rewind = s.setPc (s.pc - 2) := rfl
theorem State.raiseFault_eq (c : FaultCode) : s.raiseFault c = s.raiseFaultAt c (s.pc - 2) := rfl
theorem State.skipIf_eq (b : Bool) : s.skipIf b = s.setPc (if b then s.pc + 2 else s.pc) := by cases b <;> rfl
theorem State.emitIf_eq (e : DiagEvent) (b : Bool) :
    s.emitIf e b = { s with diag := if b then s.diag ++ [e] else s.diag } := by cases b <;> rfl

end

end Sys2Proof.Machine
end

