-- ==== Sys2Proof/Laws/Memory.lean ====
section
/-! SUPPORT. Memory: a read after a write, the canonical form kept by every write, and two memories of that
form being equal when they read alike. -/

namespace Sys2Proof.Machine

variable {font : Vector Byte 80}

theorem Memory.wfFrom_cons {lo k : Nat} {b : Byte} {m : List Host.Cell} :
    Memory.wfFrom font lo ((k, b) :: m) = true ↔
      lo ≤ k ∧ k < Config.memSize ∧ b ≠ Memory.bootByte font k ∧ Memory.wfFrom font (k + 1) m = true := by
  simp [Memory.wfFrom, and_assoc]

theorem Memory.wfFrom_mono {lo lo' : Nat} (h : lo' ≤ lo) :
    ∀ {m : List Host.Cell}, Memory.wfFrom font lo m = true → Memory.wfFrom font lo' m = true
  | [], _ => rfl
  | (k, b) :: m, hm => by
    rw [Memory.wfFrom_cons] at hm ⊢
    exact ⟨by omega, hm.2.1, hm.2.2.1, hm.2.2.2⟩

/-- Below the first cell there is nothing. -/
theorem Memory.lookup_below {lo a : Nat} :
    ∀ {m : List Host.Cell}, Memory.wfFrom font lo m = true → a < lo → Memory.lookup m a = none
  | [], _, _ => rfl
  | (k, b) :: m, hm, ha => by
    rw [Memory.wfFrom_cons] at hm
    have hk : k ≠ a := by omega
    simp only [Memory.lookup, hk, if_false]
    exact Memory.lookup_below hm.2.2.2 (by omega)

theorem Memory.lookup_insert (a c : Nat) (b : Byte) :
    ∀ (m : List Host.Cell), Memory.lookup (Memory.insert m a b) c =
      if a = c then some b else Memory.lookup m c
  | [] => by simp [Memory.insert, Memory.lookup]
  | (k, d) :: m => by
    simp only [Memory.insert]
    split
    · have ih := Memory.lookup_insert a c b m
      simp only [Memory.lookup, ih]
      split <;> split <;> first | rfl | omega
    · split
      · subst_vars; simp only [Memory.lookup]; split <;> simp_all
      · simp only [Memory.lookup]

theorem Memory.lookup_erase_other {a c : Nat} (h : a ≠ c) :
    ∀ (m : List Host.Cell), Memory.lookup (Memory.erase m a) c = Memory.lookup m c
  | [] => rfl
  | (k, d) :: m => by
    simp only [Memory.erase]
    split
    · have : k ≠ c := by omega
      simp [Memory.lookup, this, Memory.lookup_erase_other h m]
    · simp [Memory.lookup, Memory.lookup_erase_other h m]

theorem Memory.lookup_erase_same (a : Nat) :
    ∀ (m : List Host.Cell), Memory.lookup (Memory.erase m a) a = none
  | [] => rfl
  | (k, d) :: m => by
    simp only [Memory.erase]
    split
    · exact Memory.lookup_erase_same a m
    · rename_i hk
      simp only [Memory.lookup, hk, if_false]
      exact Memory.lookup_erase_same a m

/-- A read of another address is not changed by a write. -/
theorem Memory.read_write_other {m : List Host.Cell} {a c : Nat} (b : Byte) (h : a ≠ c) :
    Memory.read font (Memory.write font m a b) c = Memory.read font m c := by
  unfold Memory.write Memory.read
  split
  · rw [Memory.lookup_erase_other h]
  · rw [Memory.lookup_insert, if_neg h]

/-- A read gives the byte just written. -/
theorem Memory.read_write_same (m : List Host.Cell) (a : Nat) (b : Byte) :
    Memory.read font (Memory.write font m a b) a = b := by
  unfold Memory.write Memory.read
  split
  · rw [Memory.lookup_erase_same]; simp_all
  · simp [Memory.lookup_insert]

theorem Memory.erase_wfFrom {lo a : Nat} :
    ∀ {m : List Host.Cell}, Memory.wfFrom font lo m = true → Memory.wfFrom font lo (Memory.erase m a) = true
  | [], _ => rfl
  | (k, d) :: m, hm => by
    rw [Memory.wfFrom_cons] at hm
    simp only [Memory.erase]
    split
    · exact Memory.wfFrom_mono (by omega) (Memory.erase_wfFrom hm.2.2.2)
    · exact Memory.wfFrom_cons.2 ⟨hm.1, hm.2.1, hm.2.2.1, Memory.erase_wfFrom hm.2.2.2⟩

theorem Memory.insert_wfFrom {lo a : Nat} {b : Byte} (hlo : lo ≤ a) (ha : a < Config.memSize)
    (hb : b ≠ Memory.bootByte font a) :
    ∀ {m : List Host.Cell}, Memory.wfFrom font lo m = true → Memory.wfFrom font lo (Memory.insert m a b) = true
  | [], _ => by simp [Memory.insert, Memory.wfFrom, hlo, ha, hb]
  | (k, d) :: m, hm => by
    have hm' := Memory.wfFrom_cons.1 hm
    simp only [Memory.insert]
    split
    · exact Memory.wfFrom_cons.2 ⟨hm'.1, hm'.2.1, hm'.2.2.1, Memory.insert_wfFrom (by omega) ha hb hm'.2.2.2⟩
    · split
      · subst_vars; exact Memory.wfFrom_cons.2 ⟨hlo, ha, hb, hm'.2.2.2⟩
      · exact Memory.wfFrom_cons.2 ⟨hlo, ha, hb, Memory.wfFrom_cons.2 ⟨by omega, hm'.2.1, hm'.2.2.1, hm'.2.2.2⟩⟩

/-- Every write inside the 4096 bytes keeps the canonical form. -/
theorem Memory.write_wf {m : List Host.Cell} {a : Nat} (b : Byte) (ha : a < Config.memSize)
    (hm : Memory.wf font m = true) : Memory.wf font (Memory.write font m a b) = true := by
  unfold Memory.write
  split
  · exact Memory.erase_wfFrom hm
  · exact Memory.insert_wfFrom (Nat.zero_le a) ha ‹_› hm

/-- A cell of a memory in canonical form is never what its address reads as unlisted. -/
theorem Memory.lookup_ne_boot {lo a : Nat} :
    ∀ {m : List Host.Cell}, Memory.wfFrom font lo m = true →
      Memory.lookup m a ≠ some (Memory.bootByte font a)
  | [], _ => by simp [Memory.lookup]
  | (k, b) :: m, hm => by
    rw [Memory.wfFrom_cons] at hm
    simp only [Memory.lookup]
    split
    · subst_vars; simpa using hm.2.2.1
    · exact Memory.lookup_ne_boot hm.2.2.2

/-- Two memories of canonical form with the same lookups are the same list. -/
theorem Memory.ext_lookup {lo : Nat} :
    ∀ {m n : List Host.Cell}, Memory.wfFrom font lo m = true → Memory.wfFrom font lo n = true →
      (∀ a, Memory.lookup m a = Memory.lookup n a) → m = n
  | [], [], _, _, _ => rfl
  | [], (k, b) :: n, _, _, h => by simpa [Memory.lookup] using h k
  | (k, b) :: m, [], _, _, h => by simpa [Memory.lookup] using h k
  | (k, b) :: m, (j, c) :: n, hm, hn, h => by
    rw [Memory.wfFrom_cons] at hm hn
    have hkj : k = j := by
      rcases Nat.lt_trichotomy k j with lt | eq | gt
      · have := h k
        simp [Memory.lookup, Nat.ne_of_gt lt, Memory.lookup_below hn.2.2.2 (show k < j + 1 by omega)] at this
      · exact eq
      · have := h j
        simp [Memory.lookup, Nat.ne_of_gt gt, Memory.lookup_below hm.2.2.2 (show j < k + 1 by omega)] at this
    subst hkj
    have hbc : b = c := by simpa [Memory.lookup] using h k
    have tail : ∀ a, Memory.lookup m a = Memory.lookup n a := by
      intro a
      by_cases hak : k = a
      · subst hak
        rw [Memory.lookup_below hm.2.2.2 (by omega), Memory.lookup_below hn.2.2.2 (by omega)]
      · simpa [Memory.lookup, hak] using h a
    rw [hbc, Memory.ext_lookup hm.2.2.2 hn.2.2.2 tail]

/-- Equal memories are equal data: canonical memories that read alike everywhere are the same list. -/
theorem Memory.ext_read {m n : List Host.Cell} (hm : Memory.wf font m = true) (hn : Memory.wf font n = true)
    (h : ∀ a, Memory.read font m a = Memory.read font n a) : m = n := by
  refine Memory.ext_lookup hm hn (fun a => ?_)
  have ha := h a
  have h1 := Memory.lookup_ne_boot (a := a) hm
  have h2 := Memory.lookup_ne_boot (a := a) hn
  unfold Memory.read at ha
  cases e1 : Memory.lookup m a <;> cases e2 : Memory.lookup n a <;> simp_all

/-! ## The same, of a state -/

theorem State.readByte_writeByte_same (s : State) (a : Nat) (b : Byte) :
    (s.writeByte a b).readByte a = b := Memory.read_write_same s.mem a b

theorem State.readByte_writeByte_other (s : State) {a c : Nat} (b : Byte) (h : a ≠ c) :
    (s.writeByte a b).readByte c = s.readByte c := Memory.read_write_other b h

theorem State.readByte_congr {s t : State} (hm : t.mem = s.mem) (hp : t.params = s.params) (a : Nat) :
    t.readByte a = s.readByte a := by simp [State.readByte, hm, hp]

theorem State.writeByte_wf (s : State) {a : Nat} (b : Byte) (ha : a < Config.memSize)
    (h : Memory.wf s.params.font s.mem = true) :
    Memory.wf (s.writeByte a b).params.font (s.writeByte a b).mem = true := Memory.write_wf b ha h

end Sys2Proof.Machine
end

