-- ==== Sys2Proof/Laws/PerInstr.lean ====
section
/-! SUPPORT. The family RowMatch: the word the encoder writes selects the instruction's own row of the opcode map
(R111), under either value of FAMILY0_MATCH. -/

namespace Sys2Proof.Laws

/-- `encode i AND mask = match`, for the mask and match of the row of `i` (R111). -/
def RowMatch.Statement (i : Instr) : Prop := ∀ m : Family0Match, (i.row m).selects (encode i) = true

theorem RowMatch.cls : RowMatch.Statement .cls := by intro m; cases m <;> decide

theorem RowMatch.ret : RowMatch.Statement .ret := by intro m; cases m <;> decide

theorem RowMatch.jp (nnn : Addr12) : RowMatch.Statement (.jp nnn) := by
  intro m
  simp only [Instr.row, OpcodeRow.selects, encode, packNNN_and_op]
  decide

theorem RowMatch.call (nnn : Addr12) : RowMatch.Statement (.call nnn) := by
  intro m
  simp only [Instr.row, OpcodeRow.selects, encode, packNNN_and_op]
  decide

theorem RowMatch.seImm (x : Nibble) (kk : Byte) : RowMatch.Statement (.seImm x kk) := by
  intro m
  simp only [Instr.row, OpcodeRow.selects, encode, packXKK_and_op]
  decide

theorem RowMatch.sneImm (x : Nibble) (kk : Byte) : RowMatch.Statement (.sneImm x kk) := by
  intro m
  simp only [Instr.row, OpcodeRow.selects, encode, packXKK_and_op]
  decide

theorem RowMatch.seReg (x y : Nibble) : RowMatch.Statement (.seReg x y) := by
  intro m
  simp only [Instr.row, OpcodeRow.selects, encode, packXYN_and_op]
  decide

theorem RowMatch.ldImm (x : Nibble) (kk : Byte) : RowMatch.Statement (.ldImm x kk) := by
  intro m
  simp only [Instr.row, OpcodeRow.selects, encode, packXKK_and_op]
  decide

theorem RowMatch.addImm (x : Nibble) (kk : Byte) : RowMatch.Statement (.addImm x kk) := by
  intro m
  simp only [Instr.row, OpcodeRow.selects, encode, packXKK_and_op]
  decide

theorem RowMatch.ldReg (x y : Nibble) : RowMatch.Statement (.ldReg x y) := by
  intro m
  simp only [Instr.row, OpcodeRow.selects, encode, packXYN_and_op_n]
  decide

theorem RowMatch.orReg (x y : Nibble) : RowMatch.Statement (.orReg x y) := by
  intro m
  simp only [Instr.row, OpcodeRow.selects, encode, packXYN_and_op_n]
  decide

theorem RowMatch.andReg (x y : Nibble) : RowMatch.Statement (.andReg x y) := by
  intro m
  simp only [Instr.row, OpcodeRow.selects, encode, packXYN_and_op_n]
  decide

theorem RowMatch.xorReg (x y : Nibble) : RowMatch.Statement (.xorReg x y) := by
  intro m
  simp only [Instr.row, OpcodeRow.selects, encode, packXYN_and_op_n]
  decide

theorem RowMatch.addReg (x y : Nibble) : RowMatch.Statement (.addReg x y) := by
  intro m
  simp only [Instr.row, OpcodeRow.selects, encode, packXYN_and_op_n]
  decide

theorem RowMatch.subReg (x y : Nibble) : RowMatch.Statement (.subReg x y) := by
  intro m
  simp only [Instr.row, OpcodeRow.selects, encode, packXYN_and_op_n]
  decide

theorem RowMatch.shr (x : Nibble) : RowMatch.Statement (.shr x) := by
  intro m
  simp only [Instr.row, OpcodeRow.selects, encode, packXYN_and_op_n]
  decide

theorem RowMatch.subnReg (x y : Nibble) : RowMatch.Statement (.subnReg x y) := by
  intro m
  simp only [Instr.row, OpcodeRow.selects, encode, packXYN_and_op_n]
  decide

theorem RowMatch.shl (x : Nibble) : RowMatch.Statement (.shl x) := by
  intro m
  simp only [Instr.row, OpcodeRow.selects, encode, packXYN_and_op_n]
  decide

theorem RowMatch.sneReg (x y : Nibble) : RowMatch.Statement (.sneReg x y) := by
  intro m
  simp only [Instr.row, OpcodeRow.selects, encode, packXYN_and_op]
  decide

theorem RowMatch.ldI (nnn : Addr12) : RowMatch.Statement (.ldI nnn) := by
  intro m
  simp only [Instr.row, OpcodeRow.selects, encode, packNNN_and_op]
  decide

theorem RowMatch.jpV0 (nnn : Addr12) : RowMatch.Statement (.jpV0 nnn) := by
  intro m
  simp only [Instr.row, OpcodeRow.selects, encode, packNNN_and_op]
  decide

theorem RowMatch.rnd (x : Nibble) (kk : Byte) : RowMatch.Statement (.rnd x kk) := by
  intro m
  simp only [Instr.row, OpcodeRow.selects, encode, packXKK_and_op]
  decide

theorem RowMatch.drw (x y n : Nibble) : RowMatch.Statement (.drw x y n) := by
  intro m
  simp only [Instr.row, OpcodeRow.selects, encode, packXYN_and_op]
  decide

theorem RowMatch.skp (x : Nibble) : RowMatch.Statement (.skp x) := by
  intro m
  simp only [Instr.row, OpcodeRow.selects, encode, packXKK_and_op_kk]
  decide

theorem RowMatch.sknp (x : Nibble) : RowMatch.Statement (.sknp x) := by
  intro m
  simp only [Instr.row, OpcodeRow.selects, encode, packXKK_and_op_kk]
  decide

theorem RowMatch.ldVxDt (x : Nibble) : RowMatch.Statement (.ldVxDt x) := by
  intro m
  simp only [Instr.row, OpcodeRow.selects, encode, packXKK_and_op_kk]
  decide

theorem RowMatch.ldVxK (x : Nibble) : RowMatch.Statement (.ldVxK x) := by
  intro m
  simp only [Instr.row, OpcodeRow.selects, encode, packXKK_and_op_kk]
  decide

theorem RowMatch.ldDtVx (x : Nibble) : RowMatch.Statement (.ldDtVx x) := by
  intro m
  simp only [Instr.row, OpcodeRow.selects, encode, packXKK_and_op_kk]
  decide

theorem RowMatch.ldStVx (x : Nibble) : RowMatch.Statement (.ldStVx x) := by
  intro m
  simp only [Instr.row, OpcodeRow.selects, encode, packXKK_and_op_kk]
  decide

theorem RowMatch.addIVx (x : Nibble) : RowMatch.Statement (.addIVx x) := by
  intro m
  simp only [Instr.row, OpcodeRow.selects, encode, packXKK_and_op_kk]
  decide

theorem RowMatch.ldFVx (x : Nibble) : RowMatch.Statement (.ldFVx x) := by
  intro m
  simp only [Instr.row, OpcodeRow.selects, encode, packXKK_and_op_kk]
  decide

theorem RowMatch.ldBVx (x : Nibble) : RowMatch.Statement (.ldBVx x) := by
  intro m
  simp only [Instr.row, OpcodeRow.selects, encode, packXKK_and_op_kk]
  decide

theorem RowMatch.ldMemVx (x : Nibble) : RowMatch.Statement (.ldMemVx x) := by
  intro m
  simp only [Instr.row, OpcodeRow.selects, encode, packXKK_and_op_kk]
  decide

theorem RowMatch.ldVxMem (x : Nibble) : RowMatch.Statement (.ldVxMem x) := by
  intro m
  simp only [Instr.row, OpcodeRow.selects, encode, packXKK_and_op_kk]
  decide

end Sys2Proof.Laws
end

