-- ==== Sys2Proof/Laws/Registers.lean ====
section
/-! SUPPORT. Registers and the keypad: what a read gives after a write, and that a read depends on its own field
alone. -/

namespace Sys2Proof.Machine

theorem State.readV_setV (s : State) (x y : Nibble) (b : Byte) :
    (s.setV x b).readV y = if y = x then b else s.readV y := by
  simp only [State.readV, State.setV, Vector.getElem_set, BitVec.toNat_inj, eq_comm]

@[simp] theorem State.readV_setV_same (s : State) (x : Nibble) (b : Byte) : (s.setV x b).readV x = b := by
  simp [State.readV_setV]

/-- VF receives the flag, another destination the result, and no other register changes (R170). -/
theorem State.readV_setResultFlag (s : State) (x y : Nibble) (r f : Byte) :
    (s.setResultFlag x r f).readV y = if y = 0xF then f else if y = x then r else s.readV y := by
  simp only [State.setResultFlag, State.readV_setV]

theorem State.readV_congr {s t : State} (h : t.v = s.v) (x : Nibble) : t.readV x = s.readV x := by
  simp only [State.readV, h]

/-- Two states whose registers read alike have the same register file. -/
theorem State.v_ext {s t : State} (h : ∀ x, t.readV x = s.readV x) : t.v = s.v := by
  apply Vector.ext
  intro j hj
  have := h (BitVec.ofNat 4 j)
  simpa [State.readV, BitVec.toNat_ofNat, Nat.mod_eq_of_lt hj] using this

theorem State.keyDown_congr {s t : State} (h : t.key = s.key) (k : Nibble) : t.keyDown k = s.keyDown k := by
  simp only [State.keyDown, h]

/-- The pre-increment and the fault's restoring of PC cancel (R311). -/
theorem word_add_two_sub_two (w : Word) : w + 2 - 2 = w := by simp

/-! ## The lowest pressed key (R263) -/

theorem lowestPressedFrom_none {key : Vector Bool 16} :
    ∀ {count k : Nat}, lowestPressedFrom key count k = none ↔
      ∀ j, k ≤ j → j < k + count → key[j]?.getD false = false
  | 0, k => by simp [lowestPressedFrom]; omega
  | count + 1, k => by
    simp only [lowestPressedFrom]
    split
    · rename_i h
      simp only [reduceCtorEq, false_iff]
      intro hall
      have := hall k (by omega) (by omega)
      simp_all
    · rename_i h
      rw [lowestPressedFrom_none]
      constructor
      · intro hall j h1 h2
        rcases Nat.eq_or_lt_of_le h1 with rfl | h3
        · simpa using h
        · exact hall j h3 (by omega)
      · intro hall j h1 h2
        exact hall j (by omega) (by omega)

theorem lowestPressedFrom_some {key : Vector Bool 16} {r : Nat} :
    ∀ {count k : Nat}, lowestPressedFrom key count k = some r →
      k ≤ r ∧ r < k + count ∧ key[r]?.getD false = true ∧ ∀ j, k ≤ j → j < r → key[j]?.getD false = false
  | 0, k, h => by simp [lowestPressedFrom] at h
  | count + 1, k, h => by
    simp only [lowestPressedFrom] at h
    split at h
    · rename_i hk
      cases h
      exact ⟨by omega, by omega, hk, by intro j h1 h2; omega⟩
    · rename_i hk
      obtain ⟨h1, h2, h3, h4⟩ := lowestPressedFrom_some h
      refine ⟨by omega, by omega, h3, fun j hj hjr => ?_⟩
      rcases Nat.eq_or_lt_of_le hj with rfl | h5
      · simpa using hk
      · exact h4 j h5 hjr

/-- No key is found exactly when every key is released. -/
theorem lowestPressed_none {key : Vector Bool 16} :
    lowestPressed key = none ↔ ∀ (k : Nat) (h : k < 16), key[k] = false := by
  unfold lowestPressed
  rw [lowestPressedFrom_none]
  constructor
  · intro h k hk; simpa [hk] using h k (by omega) (by omega)
  · intro h j _ hj
    have hj' : j < 16 := by omega
    simpa [hj'] using h j hj'

/-- The key found is pressed, and no key below it is. -/
theorem lowestPressed_some {key : Vector Bool 16} {r : Nat} (h : lowestPressed key = some r) :
    ∃ hr : r < 16, key[r] = true ∧ ∀ (k : Nat) (hk : k < r), key[k]'(by omega) = false := by
  obtain ⟨_, h2, h3, h4⟩ := lowestPressedFrom_some h
  have hr : r < 16 := by omega
  refine ⟨hr, by simpa [hr] using h3, fun k hk => ?_⟩
  have hk' : k < 16 := by omega
  simpa [hk'] using h4 k (by omega) hk

end Sys2Proof.Machine
end

