-- ==== Sys2Proof/Laws/Picture.lean ====
section
/-! SUPPORT. The display: pixel reads after pixel writes, and which pixels a draw flips. -/

namespace Sys2Proof.Machine

theorem Display.pixel_eq (d : Display) {row col : Nat} (hr : row < 32) (hc : col < 64) :
    d.pixel row col = d[row][col] := by
  simp [Display.pixel, hr, hc]

/-- A picture is what its pixels are. -/
theorem Display.ext_pixel {d e : Display}
    (h : ∀ row col, row < 32 → col < 64 → d.pixel row col = e.pixel row col) : d = e := by
  apply Vector.ext
  intro r hr
  apply Vector.ext
  intro c hc
  simpa [Display.pixel_eq, hr, hc] using h r c hr hc

theorem Display.pixel_blank (row col : Nat) : Display.blank.pixel row col = false := by
  by_cases hr : row < 32 <;> by_cases hc : col < 64 <;> simp [Display.pixel, Display.blank, hr, hc]

theorem Display.pixel_setPixel (d : Display) {r c row col : Nat} (b : Bool) (hr : r < 32) (hc : c < 64) :
    (d.setPixel r c b).pixel row col = if row = r ∧ col = c then b else d.pixel row col := by
  unfold Display.setPixel
  rw [Vector.getElem?_eq_getElem hr]
  simp only [Display.pixel]
  by_cases h1 : row = r
  · subst h1
    by_cases h2 : col = c
    · subst h2; simp [hr, hc]
    · simp [hr, h2, Ne.symm h2]
  · simp [h1, Ne.symm h1]

/-! ## Flips

A draw is described by the set of places it flips: a pixel is lit after it exactly when not (lit before iff
outside the set). -/

/-- Flipping the places of A and then those of B, apart from them, flips those of C, the two together. -/
theorem flip_trans {p q r A B C : Prop} (h1 : q ↔ ¬ (p ↔ A)) (h2 : r ↔ ¬ (q ↔ B)) (hC : C ↔ A ∨ B)
    (hAB : A → ¬ B) : r ↔ ¬ (p ↔ C) := by
  by_cases hp : p <;> by_cases hA : A <;> by_cases hB : B <;> simp_all

/-- Off the flipped places nothing changes. -/
theorem flip_off {p q A : Prop} (h1 : q ↔ ¬ (p ↔ A)) (hA : ¬ A) : q ↔ p := by
  by_cases hp : p <;> simp_all

/-- The place is under a set bit of the byte, among the `count` column offsets from `c` on. -/
def UnderBit (b : Byte) (r ox c count row col : Nat) : Prop :=
  row = r ∧ ox + c ≤ col ∧ col < ox + c + count ∧ spriteBit b (col - ox) = true

theorem underBit_one {b : Byte} {r ox c row col : Nat} :
    UnderBit b r ox c 1 row col ↔ row = r ∧ col = ox + c ∧ spriteBit b c = true := by
  have e : ox + c - ox = c := by omega
  constructor
  · rintro ⟨h1, h2, h3, h4⟩
    have : col = ox + c := by omega
    subst this
    exact ⟨h1, rfl, by rwa [e] at h4⟩
  · rintro ⟨h1, rfl, h3⟩
    exact ⟨h1, by omega, by omega, by rwa [e]⟩

theorem underBit_succ {b : Byte} {r ox c count row col : Nat} :
    UnderBit b r ox c (count + 1) row col ↔
      UnderBit b r ox c 1 row col ∨ UnderBit b r ox (c + 1) count row col := by
  constructor
  · rintro ⟨h1, h2, h3, h4⟩
    by_cases h : col = ox + c
    · exact Or.inl ⟨h1, by omega, by omega, h4⟩
    · exact Or.inr ⟨h1, by omega, by omega, h4⟩
  · rintro (⟨h1, h2, h3, h4⟩ | ⟨h1, h2, h3, h4⟩) <;> exact ⟨h1, by omega, by omega, h4⟩

theorem underBit_apart {b : Byte} {r ox c count row col : Nat} (h : UnderBit b r ox c 1 row col) :
    ¬ UnderBit b r ox (c + 1) count row col := by
  rintro ⟨-, h2, -⟩
  have := h.2.2.1
  omega

/-- What one pixel of the walk does (R212). -/
theorem drawPixel_spec (b : Byte) {r : Nat} (ox c : Nat) (hr : r < 32) (d : Drawing) :
    (∀ row col, col < 64 → ((drawPixel b r ox c d).disp.pixel row col = true ↔
      ¬ (d.disp.pixel row col = true ↔ UnderBit b r ox c 1 row col))) ∧
    ((drawPixel b r ox c d).collision = true ↔ d.collision = true ∨
      ∃ row col, col < 64 ∧ UnderBit b r ox c 1 row col ∧ d.disp.pixel row col = true) ∧
    (drawPixel b r ox c d).outOfMemory = d.outOfMemory := by
  simp only [underBit_one]
  by_cases h64 : 64 ≤ ox + c
  · have e : drawPixel b r ox c d = d := by simp [drawPixel, h64]
    rw [e]
    refine ⟨fun row col hc => ?_, ⟨Or.inl, ?_⟩, rfl⟩
    · have : ¬ (row = r ∧ col = ox + c ∧ spriteBit b c = true) := by omega
      simp [this]
    · rintro (h | ⟨row, col, h1, ⟨-, h2, -⟩, -⟩)
      · exact h
      · omega
  · by_cases hb : spriteBit b c = true
    · by_cases hp : d.disp.pixel r (ox + c) = true
      · have e : drawPixel b r ox c d =
            { d with disp := d.disp.setPixel r (ox + c) false, collision := true } := by
          simp [drawPixel, h64, hb, hp]
        rw [e]
        refine ⟨fun row col _ => ?_, ?_, rfl⟩
        · simp only [Display.pixel_setPixel d.disp false hr (by omega : ox + c < 64)]
          by_cases h : row = r ∧ col = ox + c
          · obtain ⟨rfl, rfl⟩ := h; simp [hb, hp]
          · have : ¬ (row = r ∧ col = ox + c ∧ spriteBit b c = true) := fun k => h ⟨k.1, k.2.1⟩
            simp [h, this]
        · simp only [true_iff]
          exact Or.inr ⟨r, ox + c, by omega, ⟨rfl, rfl, hb⟩, hp⟩
      · have e : drawPixel b r ox c d = { d with disp := d.disp.setPixel r (ox + c) true } := by
          simp [drawPixel, h64, hb, hp]
        rw [e]
        refine ⟨fun row col _ => ?_, ⟨Or.inl, ?_⟩, rfl⟩
        · simp only [Display.pixel_setPixel d.disp true hr (by omega : ox + c < 64)]
          by_cases h : row = r ∧ col = ox + c
          · obtain ⟨rfl, rfl⟩ := h; simp [hb, hp]
          · have : ¬ (row = r ∧ col = ox + c ∧ spriteBit b c = true) := fun k => h ⟨k.1, k.2.1⟩
            simp [h, this]
        · rintro (h | ⟨row, col, -, ⟨rfl, rfl, -⟩, h⟩)
          · exact h
          · exact absurd h hp
    · have e : drawPixel b r ox c d = d := by simp [drawPixel, hb]
      rw [e]
      simp [hb]

/-- The pixels of one sprite row: those under a set bit are flipped, and the collision flag is raised exactly
when one of them was lit (R212). -/
theorem drawPixels_spec (b : Byte) {r : Nat} (ox : Nat) (hr : r < 32) : ∀ (count c : Nat) (d : Drawing),
    (∀ row col, col < 64 → ((drawPixels b r ox count c d).disp.pixel row col = true ↔
      ¬ (d.disp.pixel row col = true ↔ UnderBit b r ox c count row col))) ∧
    ((drawPixels b r ox count c d).collision = true ↔ d.collision = true ∨
      ∃ row col, col < 64 ∧ UnderBit b r ox c count row col ∧ d.disp.pixel row col = true) ∧
    (drawPixels b r ox count c d).outOfMemory = d.outOfMemory
  | 0, c, d => by
    have h : ∀ row col, ¬ UnderBit b r ox c 0 row col := by
      rintro row col ⟨-, h2, h3, -⟩; omega
    simp [drawPixels, h]
  | count + 1, c, d => by
    obtain ⟨p1, p2, p3⟩ := drawPixel_spec b ox c hr d
    obtain ⟨i1, i2, i3⟩ := drawPixels_spec b ox hr count (c + 1) (drawPixel b r ox c d)
    simp only [drawPixels]
    refine ⟨fun row col hc => flip_trans (p1 row col hc) (i1 row col hc) underBit_succ underBit_apart, ?_,
      i3.trans p3⟩
    rw [i2, p2]
    constructor
    · rintro ((h | ⟨row, col, h1, h2, h3⟩) | ⟨row, col, h1, h2, h3⟩)
      · exact Or.inl h
      · exact Or.inr ⟨row, col, h1, underBit_succ.2 (Or.inl h2), h3⟩
      · exact Or.inr ⟨row, col, h1, underBit_succ.2 (Or.inr h2),
          (flip_off (p1 row col h1) (fun k => underBit_apart k h2)).1 h3⟩
    · rintro (h | ⟨row, col, h1, h2, h3⟩)
      · exact Or.inl (Or.inl h)
      · rcases underBit_succ.1 h2 with h4 | h4
        · exact Or.inl (Or.inr ⟨row, col, h1, h4, h3⟩)
        · exact Or.inr ⟨row, col, h1, h4, (flip_off (p1 row col h1) (fun k => underBit_apart k h4)).2 h3⟩

/-- The same for a row that may lie below the display (R212: clipped, not wrapped). -/
theorem drawRow_spec (b : Byte) (r ox : Nat) (d : Drawing) :
    (∀ row col, row < 32 → col < 64 → ((drawRow b r ox d).disp.pixel row col = true ↔
      ¬ (d.disp.pixel row col = true ↔ UnderBit b r ox 0 8 row col))) ∧
    ((drawRow b r ox d).collision = true ↔ d.collision = true ∨
      ∃ row col, row < 32 ∧ col < 64 ∧ UnderBit b r ox 0 8 row col ∧ d.disp.pixel row col = true) ∧
    (drawRow b r ox d).outOfMemory = d.outOfMemory := by
  by_cases hr : 32 ≤ r
  · have e : drawRow b r ox d = d := by simp [drawRow, hr]
    rw [e]
    refine ⟨fun row col h1 _ => ?_, ⟨Or.inl, ?_⟩, rfl⟩
    · have : ¬ UnderBit b r ox 0 8 row col := by rintro ⟨rfl, -⟩; omega
      simp [this]
    · rintro (h | ⟨row, col, h1, -, ⟨rfl, -⟩, -⟩)
      · exact h
      · omega
  · have e : drawRow b r ox d = drawPixels b r ox 8 0 d := by simp [drawRow, hr]
    rw [e]
    obtain ⟨p1, p2, p3⟩ := drawPixels_spec b ox (by omega : r < 32) 8 0 d
    refine ⟨fun row col _ h2 => p1 row col h2, ?_, p3⟩
    rw [p2]
    constructor
    · rintro (h | ⟨row, col, h1, h2, h3⟩)
      · exact Or.inl h
      · exact Or.inr ⟨row, col, by rw [h2.1]; omega, h1, h2, h3⟩
    · rintro (h | ⟨row, col, -, h1, h2, h3⟩)
      · exact Or.inl h
      · exact Or.inr ⟨row, col, h1, h2, h3⟩

/-- Whether the sprite rows `r0` to `r0 + count - 1` cover the place with a set bit: in the rows that lie in
memory, in the eight columns, and under a set bit of its row's byte (R210, R212). -/
def Covers (read : Nat → Byte) (base ox oy r0 count row col : Nat) : Prop :=
  oy + r0 ≤ row ∧ row < oy + r0 + count ∧ base + (row - oy) < Config.memSize ∧
    UnderBit (read (base + (row - oy))) row ox 0 8 row col

theorem covers_succ {read : Nat → Byte} {base ox oy r count row col : Nat} (hm : base + r < Config.memSize) :
    Covers read base ox oy r (count + 1) row col ↔
      UnderBit (read (base + r)) (oy + r) ox 0 8 row col ∨ Covers read base ox oy (r + 1) count row col := by
  constructor
  · rintro ⟨h1, h2, h3, h4⟩
    by_cases h : row = oy + r
    · subst h
      have e : oy + r - oy = r := by omega
      rw [e] at h4
      exact Or.inl h4
    · exact Or.inr ⟨by omega, by omega, h3, h4⟩
  · rintro (h | ⟨h1, h2, h3⟩)
    · obtain rfl : row = oy + r := h.1
      have e : oy + r - oy = r := by omega
      exact ⟨by omega, by omega, by rw [e]; exact hm, by rw [e]; exact h⟩
    · exact ⟨by omega, by omega, h3⟩

theorem covers_apart {read : Nat → Byte} {b : Byte} {base ox oy r count row col : Nat}
    (h : UnderBit b (oy + r) ox 0 8 row col) : ¬ Covers read base ox oy (r + 1) count row col := by
  rintro ⟨h1, -⟩
  have := h.1
  omega

/-- The row walk flips exactly the in-bounds pixels the sprite covers, raises the collision flag exactly when one
of them was lit, and reports a row outside memory exactly when there is one (R212, R213). -/
theorem drawRows_spec (read : Nat → Byte) (base ox oy : Nat) : ∀ (count r : Nat) (d : Drawing),
    (∀ row col, row < 32 → col < 64 → ((drawRows read base ox oy count r d).disp.pixel row col = true ↔
      ¬ (d.disp.pixel row col = true ↔ Covers read base ox oy r count row col))) ∧
    ((drawRows read base ox oy count r d).collision = true ↔ d.collision = true ∨
      ∃ row col, row < 32 ∧ col < 64 ∧ Covers read base ox oy r count row col ∧ d.disp.pixel row col = true) ∧
    ((drawRows read base ox oy count r d).outOfMemory = true ↔ d.outOfMemory = true ∨
      (0 < count ∧ Config.memSize < base + r + count))
  | 0, r, d => by
    have hc : ∀ row col, ¬ Covers read base ox oy r 0 row col := by
      rintro row col ⟨h1, h2, -⟩; omega
    simp [drawRows, hc]
  | count + 1, r, d => by
    by_cases hm : base + r < Config.memSize
    · have e : drawRows read base ox oy (count + 1) r d =
          drawRows read base ox oy count (r + 1) (drawRow (read (base + r)) (oy + r) ox d) := by
        simp only [drawRows]; rw [if_pos hm]
      rw [e]
      obtain ⟨k1, k2, k3⟩ := drawRow_spec (read (base + r)) (oy + r) ox d
      obtain ⟨i1, i2, i3⟩ := drawRows_spec read base ox oy count (r + 1)
        (drawRow (read (base + r)) (oy + r) ox d)
      refine ⟨fun row col h1 h2 => flip_trans (k1 row col h1 h2) (i1 row col h1 h2) (covers_succ hm) covers_apart,
        ?_, ?_⟩
      · rw [i2, k2]
        constructor
        · rintro ((h | ⟨row, col, h1, h2, h3, h4⟩) | ⟨row, col, h1, h2, h3, h4⟩)
          · exact Or.inl h
          · exact Or.inr ⟨row, col, h1, h2, (covers_succ hm).2 (Or.inl h3), h4⟩
          · exact Or.inr ⟨row, col, h1, h2, (covers_succ hm).2 (Or.inr h3),
              (flip_off (k1 row col h1 h2) (fun k => covers_apart k h3)).1 h4⟩
        · rintro (h | ⟨row, col, h1, h2, h3, h4⟩)
          · exact Or.inl (Or.inl h)
          · rcases (covers_succ hm).1 h3 with h5 | h5
            · exact Or.inl (Or.inr ⟨row, col, h1, h2, h5, h4⟩)
            · exact Or.inr ⟨row, col, h1, h2, h5,
                (flip_off (k1 row col h1 h2) (fun k => covers_apart k h5)).2 h4⟩
      · rw [i3, k3]
        refine or_congr Iff.rfl ?_
        omega
    · have e : drawRows read base ox oy (count + 1) r d = { d with outOfMemory := true } := by
        simp only [drawRows]; rw [if_neg hm]
      have hc : ∀ row col, ¬ Covers read base ox oy r (count + 1) row col := by
        rintro row col ⟨h1, h2, h3, -⟩; omega
      rw [e]
      refine ⟨fun row col _ _ => by simp [hc], by simp [hc], ?_⟩
      simp only [true_iff]
      exact Or.inr (by omega)

end Sys2Proof.Machine
end

