-- ==== Sys2Proof/Laws/Transfer.lean ====
section
/-! SUPPORT. The loops of Fx55, Fx65 and the ROM load: which bytes and registers they write, and that they write
nothing else. -/

namespace Sys2Proof.Machine

/-- The store loop touches memory and diagnostics alone (R247). -/
theorem State.storeRegs_shape : ∀ (count j : Nat) (s : State),
    State.storeRegs count j s =
      { s with mem := (State.storeRegs count j s).mem, diag := (State.storeRegs count j s).diag }
  | 0, _, _ => rfl
  | count + 1, j, s => by
    simp only [State.storeRegs]
    split
    · exact State.storeRegs_shape count (j + 1) _
    · rfl

/-- The bytes the store loop writes: V[k] at I + k, for each k of its range whose address is in memory (R247). -/
theorem State.storeRegs_readByte : ∀ (count j : Nat) (s : State) (a : Nat),
    (State.storeRegs count j s).readByte a =
      if s.i.toNat + j ≤ a ∧ a < s.i.toNat + j + count ∧ a < Config.memSize then
        s.readV (BitVec.ofNat 4 (a - s.i.toNat))
      else s.readByte a
  | 0, j, s, a => by
    simp only [State.storeRegs]
    rw [if_neg (by omega)]
  | count + 1, j, s, a => by
    simp only [State.storeRegs]
    split
    · rename_i hm
      rw [State.storeRegs_readByte count (j + 1)]
      by_cases ha : a = s.i.toNat + j
      · subst ha
        have e : s.i.toNat + j - s.i.toNat = j := by omega
        rw [if_neg (by simp), if_pos (by simp [hm]), State.readByte_writeByte_same, e]
      · rw [State.readByte_writeByte_other _ _ (Ne.symm ha)]
        simp only [State.writeByte_i, State.readV_congr (State.writeByte_v s _ _)]
        split <;> split <;> first | rfl | omega
    · rename_i hm
      rw [if_neg (by omega)]
      rfl

/-- The store loop reports STORE_OOB exactly when its range leaves memory (R247, R315). -/
theorem State.storeRegs_diag : ∀ (count j : Nat) (s : State),
    (State.storeRegs count j s).diag =
      if 0 < count ∧ Config.memSize < s.i.toNat + j + count then s.diag ++ [.storeOob] else s.diag
  | 0, _, s => by simp [State.storeRegs]
  | count + 1, j, s => by
    simp only [State.storeRegs]
    split
    · rename_i hm
      rw [State.storeRegs_diag count (j + 1)]
      refine if_congr ?_ rfl rfl
      simp only [State.writeByte_i]
      omega
    · rename_i hm
      rw [if_pos (by omega)]
      rfl

/-- The store loop keeps memory's canonical form. -/
theorem State.storeRegs_wf : ∀ (count j : Nat) (s : State), Memory.wf s.params.font s.mem = true →
    Memory.wf s.params.font (State.storeRegs count j s).mem = true
  | 0, _, _, h => h
  | count + 1, j, s, h => by
    simp only [State.storeRegs]
    split
    · rename_i hm
      exact State.storeRegs_wf count (j + 1) (s.writeByte _ _) (Memory.write_wf _ hm h)
    · exact h

/-- The bytes Fx33 writes: the three digits at the address and the two after it, and no other (R246). -/
theorem State.writeDigits_readByte (s : State) (a : Nat) (v : Byte) (c : Nat) :
    (s.writeDigits a v).readByte c =
      if c = a then hundreds v else if c = a + 1 then tens v else if c = a + 2 then units v else s.readByte c := by
  simp only [State.writeDigits]
  split_ifs with h0 h1 h2
  · rw [State.readByte_writeByte_other _ _ (by omega), State.readByte_writeByte_other _ _ (by omega), h0,
      State.readByte_writeByte_same]
  · rw [State.readByte_writeByte_other _ _ (by omega), h1, State.readByte_writeByte_same]
  · rw [h2, State.readByte_writeByte_same]
  · rw [State.readByte_writeByte_other _ _ (Ne.symm h2), State.readByte_writeByte_other _ _ (Ne.symm h1),
      State.readByte_writeByte_other _ _ (Ne.symm h0)]

/-- The load loop touches the registers and diagnostics alone (R248). -/
theorem State.loadRegs_shape : ∀ (count j : Nat) (s : State),
    State.loadRegs count j s =
      { s with v := (State.loadRegs count j s).v, diag := (State.loadRegs count j s).diag }
  | 0, _, _ => rfl
  | count + 1, j, s => by
    simp only [State.loadRegs]
    split
    · exact State.loadRegs_shape count (j + 1) _
    · rfl

/-- The registers the load loop writes: V[k] from I + k, for each k of its range whose address is in memory
(R248). -/
theorem State.loadRegs_readV : ∀ (count j : Nat) (s : State), j + count ≤ 16 → ∀ (y : Nibble),
    (State.loadRegs count j s).readV y =
      if j ≤ y.toNat ∧ y.toNat < j + count ∧ s.i.toNat + y.toNat < Config.memSize then
        s.readByte (s.i.toNat + y.toNat)
      else s.readV y
  | 0, j, s, _, y => by
    simp only [State.loadRegs]
    rw [if_neg (by omega)]
  | count + 1, j, s, h, y => by
    simp only [State.loadRegs]
    split
    · rename_i hm
      rw [State.loadRegs_readV count (j + 1) _ (by omega)]
      simp only [State.setV_i, State.readV_setV,
        State.readByte_congr (State.setV_mem s _ _) (State.setV_params s _ _)]
      by_cases hy : y.toNat = j
      · have e : y = BitVec.ofNat 4 j := by
          apply BitVec.eq_of_toNat_eq
          rw [BitVec.toNat_ofNat, Nat.mod_eq_of_lt (by omega), hy]
        rw [if_neg (by omega), if_pos e, if_pos (by omega), hy]
      · have e : y ≠ BitVec.ofNat 4 j := by
          intro c
          apply hy
          rw [c, BitVec.toNat_ofNat, Nat.mod_eq_of_lt (by omega)]
        rw [if_neg e]
        split <;> split <;> first | rfl | omega
    · rename_i hm
      rw [if_neg (by omega)]
      rfl

/-- The load loop reports LOAD_OOB exactly when its range leaves memory (R248, R315). -/
theorem State.loadRegs_diag : ∀ (count j : Nat) (s : State),
    (State.loadRegs count j s).diag =
      if 0 < count ∧ Config.memSize < s.i.toNat + j + count then s.diag ++ [.loadOob] else s.diag
  | 0, _, s => by simp [State.loadRegs]
  | count + 1, j, s => by
    simp only [State.loadRegs]
    split
    · rename_i hm
      rw [State.loadRegs_diag count (j + 1)]
      refine if_congr ?_ rfl rfl
      simp only [State.setV_i]
      omega
    · rename_i hm
      rw [if_pos (by omega)]
      rfl

/-- The ROM load touches memory alone (R345). -/
theorem State.loadBytes_shape : ∀ (bytes : List Byte) (a : Nat) (s : State),
    State.loadBytes bytes a s = { s with mem := (State.loadBytes bytes a s).mem }
  | [], _, _ => rfl
  | _ :: rest, a, _ => State.loadBytes_shape rest (a + 1) _

/-- Byte `k` of the image is at the base plus `k`, and every other byte is as it was (R345). -/
theorem State.loadBytes_readByte : ∀ (bytes : List Byte) (a : Nat) (s : State) (c : Nat),
    (State.loadBytes bytes a s).readByte c =
      if a ≤ c then (bytes[c - a]?).getD (s.readByte c) else s.readByte c
  | [], a, s, c => by simp [State.loadBytes]
  | b :: rest, a, s, c => by
    simp only [State.loadBytes]
    rw [State.loadBytes_readByte rest (a + 1)]
    rcases Nat.lt_trichotomy a c with h | h | h
    · rw [State.readByte_writeByte_other _ _ (by omega), if_pos (by omega), if_pos (by omega)]
      have e : c - a = (c - (a + 1)) + 1 := by omega
      rw [e, List.getElem?_cons_succ]
    · subst h
      rw [if_neg (by omega), if_pos (by omega), State.readByte_writeByte_same]
      simp
    · rw [State.readByte_writeByte_other _ _ (by omega), if_neg (by omega), if_neg (by omega)]

theorem State.loadBytes_wf : ∀ (bytes : List Byte) (a : Nat) (s : State), a + bytes.length ≤ Config.memSize →
    Memory.wf s.params.font s.mem = true →
    Memory.wf s.params.font (State.loadBytes bytes a s).mem = true
  | [], _, _, _, h => h
  | b :: rest, a, s, hl, h => by
    simp only [List.length_cons] at hl
    exact State.loadBytes_wf rest (a + 1) (s.writeByte a b) (by omega) (Memory.write_wf b (by omega) h)

end Sys2Proof.Machine
end

