-- ==== Sys2Proof/Laws/Step.lean ====
section
/-! SUPPORT. What an instruction can do to the parts of the state no instruction owns: one inversion lemma over all
34 meanings, and the shape of a step. -/

namespace Sys2Proof.Machine

/-- The fields a completed instruction never touches: the scheduler's, the host's, the outputs driven at frame
boundaries, the parameters (R41, R45, R286, R287, R316). -/
structure SameOutside (s t : State) : Prop where
  run : t.run = s.run
  fault : t.fault = s.fault
  phase : t.phase = s.phase
  key : t.key = s.key
  drawReq : t.drawReq = s.drawReq
  soundOn : t.soundOn = s.soundOn
  hostIn : t.hostIn = s.hostIn
  frameNo : t.frameNo = s.frameNo
  params : t.params = s.params

theorem sameOutside_skipIf (s : State) (b : Bool) : SameOutside s (s.skipIf b) := by
  cases b <;> exact ⟨rfl, rfl, rfl, rfl, rfl, rfl, rfl, rfl, rfl⟩

theorem sameOutside_pollPress (s : State) (x : Nibble) : SameOutside s (s.pollPress x) := by
  unfold State.pollPress
  split <;> exact ⟨rfl, rfl, rfl, rfl, rfl, rfl, rfl, rfl, rfl⟩

theorem sameOutside_pollRelease (s : State) : SameOutside s s.pollRelease := by
  unfold State.pollRelease
  split <;> exact ⟨rfl, rfl, rfl, rfl, rfl, rfl, rfl, rfl, rfl⟩

theorem sameOutside_storeRegs (s : State) (count j : Nat) : SameOutside s (State.storeRegs count j s) := by
  rw [State.storeRegs_shape]
  exact ⟨rfl, rfl, rfl, rfl, rfl, rfl, rfl, rfl, rfl⟩

theorem sameOutside_loadRegs (s : State) (count j : Nat) : SameOutside s (State.loadRegs count j s) := by
  rw [State.loadRegs_shape]
  exact ⟨rfl, rfl, rfl, rfl, rfl, rfl, rfl, rfl, rfl⟩

/-- Why the instruction `i` takes the fault `c` in `s` (R310); no instruction takes FETCH_OUT_OF_RANGE. -/
def FaultCause (i : Instr) (s : State) : FaultCode → Prop
  | .stackOverflow => s.sp.val = 16 ∧ ∃ nnn, i = .call nnn
  | .stackUnderflow => s.sp.val = 0 ∧ i = .ret
  | .fetchOutOfRange => False
  | .keyIndexRange => s.params.keyIndex = .fault ∧ ∃ x, 0xF < (s.readV x).toNat ∧ (i = .skp x ∨ i = .sknp x)

theorem keyIndex_none {p : KeyIndexPolicy} {v : Byte} : keyIndex p v = none ↔ p = .fault ∧ 0xF < v.toNat := by
  cases p
  · simp [keyIndex]
  · simp only [keyIndex, true_and]
    split <;> simp_all

/-- An instruction either completes, leaving everything outside it alone, or takes one fatal fault, for the cause
R310 gives it (R311, R312). -/
theorem exec_cases (i : Instr) (s : State) :
    (∃ t, exec i s = .next t ∧ SameOutside s t) ∨
      ∃ c, exec i s = .next (s.raiseFault c) ∧ FaultCause i s c := by
  have same : ∀ t : State, t.run = s.run ∧ t.fault = s.fault ∧ t.phase = s.phase ∧ t.key = s.key ∧
      t.drawReq = s.drawReq ∧ t.soundOn = s.soundOn ∧ t.hostIn = s.hostIn ∧ t.frameNo = s.frameNo ∧
      t.params = s.params → SameOutside s t :=
    fun t h => ⟨h.1, h.2.1, h.2.2.1, h.2.2.2.1, h.2.2.2.2.1, h.2.2.2.2.2.1, h.2.2.2.2.2.2.1,
      h.2.2.2.2.2.2.2.1, h.2.2.2.2.2.2.2.2⟩
  cases i
  case ret =>
    simp only [exec, execRet]
    split
    · exact Or.inl ⟨_, rfl, same _ ⟨rfl, rfl, rfl, rfl, rfl, rfl, rfl, rfl, rfl⟩⟩
    · rename_i h; exact Or.inr ⟨_, rfl, by simpa using h, rfl⟩
  case call nnn =>
    simp only [exec, execCall]
    split
    · exact Or.inl ⟨_, rfl, same _ ⟨rfl, rfl, rfl, rfl, rfl, rfl, rfl, rfl, rfl⟩⟩
    · rename_i h; exact Or.inr ⟨_, rfl, by have := s.sp.isLt; omega, nnn, rfl⟩
  case skp x =>
    simp only [exec, execSkp]
    split
    · exact Or.inl ⟨_, rfl, sameOutside_skipIf s _⟩
    · rename_i h
      obtain ⟨h1, h2⟩ := keyIndex_none.1 h
      exact Or.inr ⟨_, rfl, h1, x, h2, Or.inl rfl⟩
  case sknp x =>
    simp only [exec, execSknp]
    split
    · exact Or.inl ⟨_, rfl, sameOutside_skipIf s _⟩
    · rename_i h
      obtain ⟨h1, h2⟩ := keyIndex_none.1 h
      exact Or.inr ⟨_, rfl, h1, x, h2, Or.inr rfl⟩
  case seImm x kk => exact Or.inl ⟨_, rfl, sameOutside_skipIf s _⟩
  case sneImm x kk => exact Or.inl ⟨_, rfl, sameOutside_skipIf s _⟩
  case seReg x y => exact Or.inl ⟨_, rfl, sameOutside_skipIf s _⟩
  case sneReg x y => exact Or.inl ⟨_, rfl, sameOutside_skipIf s _⟩
  case drw x y n =>
    refine Or.inl ⟨_, rfl, ?_⟩
    rw [State.emitIf_eq]
    exact same _ ⟨rfl, rfl, rfl, rfl, rfl, rfl, rfl, rfl, rfl⟩
  case ldVxK x =>
    simp only [exec, execLdVxK]
    split
    · exact Or.inl ⟨_, rfl, sameOutside_pollPress s x⟩
    · exact Or.inl ⟨_, rfl, sameOutside_pollPress s x⟩
    · exact Or.inl ⟨_, rfl, sameOutside_pollRelease s⟩
  case ldBVx x =>
    simp only [exec, execLdBVx]
    split <;> exact Or.inl ⟨_, rfl, same _ ⟨rfl, rfl, rfl, rfl, rfl, rfl, rfl, rfl, rfl⟩⟩
  case ldMemVx x => exact Or.inl ⟨_, rfl, sameOutside_storeRegs s _ _⟩
  case ldVxMem x => exact Or.inl ⟨_, rfl, sameOutside_loadRegs s _ _⟩
  all_goals exact Or.inl ⟨_, rfl, same _ ⟨rfl, rfl, rfl, rfl, rfl, rfl, rfl, rfl, rfl⟩⟩

/-! ## The shape of a step -/

theorem step_between {s : State} (h : s.phase = .between) : step s = .next s.startFrame := by
  simp only [step, h]

theorem step_end {s : State} (h : s.phase = .slots 0) : step s = .next s.endFrame := by
  simp only [step, h]

theorem step_slot {s : State} {left : Nat} (h : s.phase = .slots (left + 1)) :
    step s = slot (s.takeSlot left) := by
  simp only [step, h]

/-- What a slot does, by what it fetches (R120). -/
theorem slot_cases (s : State) :
    (s.fetch = .outOfRange ∧ slot s = .next s.fetchFault) ∨
    (s.fetch = .unmapped ∧ slot s = .next s.advance) ∨
    ∃ i, s.fetch = .instr i ∧ slot s = exec i s.advance := by
  cases h : s.fetch with
  | outOfRange => exact Or.inl ⟨rfl, by simp only [slot, h]⟩
  | unmapped => exact Or.inr (Or.inl ⟨rfl, by simp only [slot, h, execUnmapped]⟩)
  | instr i => exact Or.inr (Or.inr ⟨i, rfl, by simp only [slot, h]⟩)

/-- A run goes on from the next state of its first step. -/
theorem core_run_next {s t : State} (n : Nat) (h : step s = .next t) :
    Sys2Proof.core.run (n + 1) s = Sys2Proof.core.run n t := by
  have unfolds : ∀ (M : Host.Core) (s t : M.State), M.step s = .next t → M.run (n + 1) s = M.run n t := by
    intro M s t h
    simp only [Host.Core.run, h]
  exact unfolds Sys2Proof.core s t h

/-- A fetch depends on PC, memory and the parameters alone (R124). -/
theorem State.fetch_congr {s t : State} (hpc : t.pc = s.pc) (hm : t.mem = s.mem) (hp : t.params = s.params) :
    t.fetch = s.fetch := by
  simp only [State.fetch, State.fetchBytes, State.readByte, hpc, hm, hp]

/-- A fetch in memory decodes the word that its two bytes spell, the byte at PC the high one (R76, R120). -/
theorem State.fetch_of_bytes {s : State} {w : Word} (hr : s.pc.toNat + 1 < Config.memSize)
    (hw : w.toNat = 256 * (s.readByte s.pc.toNat).toNat + (s.readByte (s.pc.toNat + 1)).toNat) :
    s.fetch = match decode s.params.family0 w with
      | .ok i => .instr i
      | .error _ => .unmapped := by
  have spelled : wordOfBytes (s.readByte s.pc.toNat) (s.readByte (s.pc.toNat + 1)) = w := by
    apply BitVec.eq_of_toNat_eq
    rw [hw, wordOfBytes, BitVec.toNat_append, ← Nat.shiftLeft_add_eq_or_of_lt (BitVec.isLt _), Nat.shiftLeft_eq]
    omega
  simp only [State.fetch, State.fetchBytes, decodeBytes, spelled]
  rw [if_pos (show inMemory _ from hr)]
  cases decode s.params.family0 w <;> rfl

end Sys2Proof.Machine
end

