-- ==== Sys2Proof/Tests/Slice0.lean ====
section
/-! SUPPORT. The model's own tests. Every expected value is taken from a rule of the spec or from a vector of
95_test_vectors.md, named in the comment, never from the model. The witnesses show that the hypotheses of the
statements in Obligations.lean can be met, clause by clause, at the ends of their ranges. -/

namespace Sys2Proof.Tests

open Sys2Proof Sys2Proof.Machine

/-! ## Well-formedness: parameters and images that a check refuses -/

theorem test_params_without_budget_refused : Params.wf { Params.default with ipf := 0 } = false := by decide

theorem test_default_params_accepted : Params.wf Params.default = true ∧ Params.default.ipf = 11 := by decide

/-- W11: 3585 bytes do not load. -/
theorem test_long_rom_refused : romFits (List.replicate 3585 0x00) = false := by
  unfold romFits; rw [List.length_replicate]; rfl

/-- W11: 3584 bytes load. -/
theorem test_full_rom_accepted : romFits (List.replicate 3584 0x00) = true := by
  unfold romFits; rw [List.length_replicate]; rfl

/-! ## Decoding: one word of each row, written out bit by bit from R101 and R111 -/

/-- 00E0. -/
theorem decode_cls : decode .lowByte 0b0000_0000_1110_0000 = .ok (.cls) := by decide

/-- 00EE. -/
theorem decode_ret : decode .lowByte 0b0000_0000_1110_1110 = .ok (.ret) := by decide

/-- 1nnn, nnn = A5C. -/
theorem decode_jp : decode .lowByte 0b0001_1010_0101_1100 = .ok (.jp 0xA5C) := by decide

/-- 2nnn, nnn = 301. -/
theorem decode_call : decode .lowByte 0b0010_0011_0000_0001 = .ok (.call 0x301) := by decide

/-- 3xkk, x = B, kk = 47. -/
theorem decode_seImm : decode .lowByte 0b0011_1011_0100_0111 = .ok (.seImm 0xB 0x47) := by decide

/-- 4xkk, x = 2, kk = 8D. -/
theorem decode_sneImm : decode .lowByte 0b0100_0010_1000_1101 = .ok (.sneImm 0x2 0x8D) := by decide

/-- 5xy0, x = C, y = 3. -/
theorem decode_seReg : decode .lowByte 0b0101_1100_0011_0000 = .ok (.seReg 0xC 0x3) := by decide

/-- V-E6: 5121, the low nibble is ignored. -/
theorem decode_seReg_low_nibble : decode .lowByte 0b0101_0001_0010_0001 = .ok (.seReg 0x1 0x2) := by decide

/-- 6005, the source's own word. -/
theorem decode_ldImm : decode .lowByte 0b0110_0000_0000_0101 = .ok (.ldImm 0x0 0x05) := by decide

/-- 7xkk, x = E, kk = 81. -/
theorem decode_addImm : decode .lowByte 0b0111_1110_1000_0001 = .ok (.addImm 0xE 0x81) := by decide

/-- 8xy0, x = 1, y = 2. -/
theorem decode_ldReg : decode .lowByte 0b1000_0001_0010_0000 = .ok (.ldReg 0x1 0x2) := by decide

/-- 8xy1. -/
theorem decode_orReg : decode .lowByte 0b1000_0001_0010_0001 = .ok (.orReg 0x1 0x2) := by decide

/-- 8xy2. -/
theorem decode_andReg : decode .lowByte 0b1000_0001_0010_0010 = .ok (.andReg 0x1 0x2) := by decide

/-- 8xy3. -/
theorem decode_xorReg : decode .lowByte 0b1000_0001_0010_0011 = .ok (.xorReg 0x1 0x2) := by decide

/-- 8014, the source's own word. -/
theorem decode_addReg : decode .lowByte 0b1000_0000_0001_0100 = .ok (.addReg 0x0 0x1) := by decide

/-- 8xy5, x = A, y = 7. -/
theorem decode_subReg : decode .lowByte 0b1000_1010_0111_0101 = .ok (.subReg 0xA 0x7) := by decide

/-- V-A23: 80A6, y is ignored. -/
theorem decode_shr : decode .lowByte 0b1000_0000_1010_0110 = .ok (.shr 0x0) := by decide

/-- 8xy7. -/
theorem decode_subnReg : decode .lowByte 0b1000_1010_0111_0111 = .ok (.subnReg 0xA 0x7) := by decide

/-- 8xyE, x = D. -/
theorem decode_shl : decode .lowByte 0b1000_1101_0001_1110 = .ok (.shl 0xD) := by decide

/-- V-E7: 9AB1, the low nibble is ignored. -/
theorem decode_sneReg : decode .lowByte 0b1001_1010_1011_0001 = .ok (.sneReg 0xA 0xB) := by decide

/-- Annn, nnn = 30F. -/
theorem decode_ldI : decode .lowByte 0b1010_0011_0000_1111 = .ok (.ldI 0x30F) := by decide

/-- Bnnn, nnn = FFE. -/
theorem decode_jpV0 : decode .lowByte 0b1011_1111_1111_1110 = .ok (.jpV0 0xFFE) := by decide

/-- Cxkk, x = 3, kk = 0F. -/
theorem decode_rnd : decode .lowByte 0b1100_0011_0000_1111 = .ok (.rnd 0x3 0x0F) := by decide

/-- D012, the source's own word. -/
theorem decode_drw : decode .lowByte 0b1101_0000_0001_0010 = .ok (.drw 0x0 0x1 0x2) := by decide

/-- Ex9E, x = 1. -/
theorem decode_skp : decode .lowByte 0b1110_0001_1001_1110 = .ok (.skp 0x1) := by decide

/-- ExA1, x = 8. -/
theorem decode_sknp : decode .lowByte 0b1110_1000_1010_0001 = .ok (.sknp 0x8) := by decide

/-- Fx07, x = 3. -/
theorem decode_ldVxDt : decode .lowByte 0b1111_0011_0000_0111 = .ok (.ldVxDt 0x3) := by decide

/-- Fx0A, x = F. -/
theorem decode_ldVxK : decode .lowByte 0b1111_1111_0000_1010 = .ok (.ldVxK 0xF) := by decide

/-- Fx15, x = 4. -/
theorem decode_ldDtVx : decode .lowByte 0b1111_0100_0001_0101 = .ok (.ldDtVx 0x4) := by decide

/-- Fx18, x = 2. -/
theorem decode_ldStVx : decode .lowByte 0b1111_0010_0001_1000 = .ok (.ldStVx 0x2) := by decide

/-- Fx1E, x = 1. -/
theorem decode_addIVx : decode .lowByte 0b1111_0001_0001_1110 = .ok (.addIVx 0x1) := by decide

/-- Fx29, x = A. -/
theorem decode_ldFVx : decode .lowByte 0b1111_1010_0010_1001 = .ok (.ldFVx 0xA) := by decide

/-- Fx33, x = 0. -/
theorem decode_ldBVx : decode .lowByte 0b1111_0000_0011_0011 = .ok (.ldBVx 0x0) := by decide

/-- Fx55, x = 9. -/
theorem decode_ldMemVx : decode .lowByte 0b1111_1001_0101_0101 = .ok (.ldMemVx 0x9) := by decide

/-- Fx65, x = 6. -/
theorem decode_ldVxMem : decode .lowByte 0b1111_0110_0110_0101 = .ok (.ldVxMem 0x6) := by decide

/-- V-E1, V-E5, V-E8 to V-E12: words that select nothing. -/
theorem decode_unmapped :
    decode .lowByte 0x0000 = .error (.unmapped0 0x0000) ∧ decode .lowByte 0x0123 = .error (.unmapped0 0x0123) ∧
    decode .lowByte 0x8008 = .error (.unmapped8 0x8) ∧ decode .lowByte 0x800F = .error (.unmapped8 0xF) ∧
    decode .lowByte 0xE000 = .error (.unmappedE 0x00) ∧ decode .lowByte 0xE19F = .error (.unmappedE 0x9F) ∧
    decode .lowByte 0xF0FF = .error (.unmappedF 0xFF) := by decide

/-- V-E2, V-E3, V-E4: bits 11:8 of family 0 count only under EXACT_WORD. -/
theorem decode_family0_match :
    decode .lowByte 0x01E0 = .ok .cls ∧ decode .exactWord 0x01E0 = .error (.unmapped0 0x01E0) ∧
    decode .lowByte 0x01EE = .ok .ret ∧ decode .exactWord 0x00E0 = .ok .cls := by decide

/-- R100: exactly two bytes are consumed, the first the high one, and one byte is no instruction. -/
theorem decode_bytes_big_endian :
    decodeBytes .lowByte [0x12, 0x05, 0xAA] = .ok (.jp 0x205, [0xAA]) ∧
    decodeBytes .lowByte [0x12] = .error .truncated := by decide

/-- R111: the 34 rows are 34 different rows, under either FAMILY0_MATCH. -/
theorem test_opcode_map_rows :
    (opcodeMap .lowByte).length = 34 ∧ (opcodeMap .lowByte).Nodup ∧ (opcodeMap .exactWord).Nodup := by decide

/-- The table's numbering: the row 8xy4 with its x and y fields 0, and the row Fx65. -/
theorem test_decodeTableWord :
    decodeTableWord 16 0x8004 = some (.addReg 0 0) ∧ decodeTableWord 16 0xF065 = some (.ldVxMem 0) ∧
    decodeTableWord 16 0x0000 = none := by decide

/-! ## One slot

`ready` is the reset state with a running frame's budget of eleven slots before it; `runWord` places a word at PC and
takes one step. -/

def ready : State := { State.reset with phase := .slots 11 }

/-- Like `ready`, with the keys of `bits` pressed. -/
def readyKeys (bits : BitVec 16) : State := { ready with key := keyLevels bits }

def runWord (s : State) (w : Nat) : State :=
  match step (s.withFetchWord 16 w) with
  | .next t => t
  | .fault _ => s
  | .refused _ => s

/-- `withFetchWord` stores the word big-endian at the entry, and the next step runs it (R76, R120). -/
theorem test_withFetchWord_runs :
    (State.reset.withFetchWord 16 0x6A42).readByte 0x200 = 0x6A ∧
    (State.reset.withFetchWord 16 0x6A42).readByte 0x201 = 0x42 ∧
    (runWord State.reset 0x6A42).readV 0xA = 0x42 ∧ (runWord State.reset 0x6A42).pc = 0x202 := by decide

/-- V-E13: an odd PC fetches the two bytes there. -/
theorem test_odd_pc : (runWord (ready.setPc 0x201) 0x1205).pc = 0x205 := by decide

/-- V-E14: the word at 0xFFE is in range. -/
theorem test_last_word : (runWord (ready.setPc 0xFFE) 0x0000).pc = 0x1000 := by decide

/-- V-E15 and V-E16: a slot at 0xFFF and one at 0x1000 cannot be fetched. -/
theorem test_fetch_out_of_range :
    (∃ t, step (ready.setPc 0xFFF) = .next t ∧ t.fault = some ⟨.fetchOutOfRange, 0xFFF⟩ ∧ t.run = .stopped) ∧
    (∃ t, step (ready.setPc 0x1000) = .next t ∧ t.fault = some ⟨.fetchOutOfRange, 0x1000⟩ ∧ t.pc = 0x1000) :=
  ⟨⟨_, rfl, by decide, by decide⟩, ⟨_, rfl, by decide, by decide⟩⟩

/-- V-E8: an unmapped word moves PC and nothing else. -/
theorem test_unmapped : (runWord (ready.setV 0xF 5) 0x8008).pc = 0x202 ∧
    (runWord (ready.setV 0xF 5) 0x8008).readV 0xF = 5 ∧ (runWord (ready.setV 0xF 5) 0x8008).fault = none := by decide

/-! ## Control flow (95_test_vectors.md, V-C) -/

/-- One return address, 0x0202, live. -/
def oneCall : State := { ready with stack := ready.stack.set 0 0x202, sp := 1 }

/-- A full stack. -/
def fullStack : State := { ready with sp := 16 }

/-- V-C1. -/
theorem test_call : (runWord ready 0x2300).stack[0] = 0x202 ∧ (runWord ready 0x2300).sp = 1 ∧
    (runWord ready 0x2300).pc = 0x300 := by decide

/-- V-C18: the 17th call faults and leaves the stack alone. -/
theorem test_call_overflow :
    (runWord fullStack 0x2300).fault = some ⟨.stackOverflow, 0x200⟩ ∧ (runWord fullStack 0x2300).pc = 0x200 ∧
    (runWord fullStack 0x2300).sp = 16 ∧ (runWord fullStack 0x2300).run = .stopped := by decide

/-- V-C2. -/
theorem test_ret : (runWord (oneCall.setPc 0x300) 0x00EE).pc = 0x202 ∧
    (runWord (oneCall.setPc 0x300) 0x00EE).sp = 0 := by decide

/-- V-C19 and W4. -/
theorem test_ret_underflow : (runWord ready 0x00EE).fault = some ⟨.stackUnderflow, 0x200⟩ ∧
    (runWord ready 0x00EE).pc = 0x200 ∧ (runWord ready 0x00EE).run = .stopped := by decide

/-- V-C3. -/
theorem test_jp : (runWord ready 0x1234).pc = 0x234 := by decide

/-- V-C4 and V-C5. -/
theorem test_seImm : (runWord (ready.setV 3 0x12) 0x3312).pc = 0x204 ∧
    (runWord (ready.setV 3 0x12) 0x3313).pc = 0x202 := by decide

/-- V-C6 and V-C7. -/
theorem test_sneImm : (runWord (ready.setV 3 0x12) 0x4313).pc = 0x204 ∧
    (runWord (ready.setV 3 0x12) 0x4312).pc = 0x202 := by decide

/-- V-C8 and V-C9. -/
theorem test_seReg : (runWord ((ready.setV 1 7).setV 2 7) 0x5120).pc = 0x204 ∧
    (runWord ((ready.setV 1 7).setV 2 8) 0x5120).pc = 0x202 := by decide

/-- V-C10 and V-C11. -/
theorem test_sneReg : (runWord ((ready.setV 1 7).setV 2 8) 0x9120).pc = 0x204 ∧
    (runWord (ready.setV 1 7) 0x9110).pc = 0x202 := by decide

/-- V-C13 and V-C14: the target is not reduced modulo 4096. -/
theorem test_jpV0 : (runWord (ready.setV 0 0x10) 0xB300).pc = 0x310 ∧
    (runWord (ready.setV 0 0xFF) 0xBFFF).pc = 0x10FE := by decide

/-! ## Arithmetic and logic (V-A) -/

/-- V0, V1 and the word. -/
def run01 (a b : Byte) (w : Nat) : State := runWord ((ready.setV 0 a).setV 1 b) w

/-- V1, V2, VF = 0x77 and the word. -/
def run12 (a b : Byte) (w : Nat) : State := runWord (((ready.setV 1 a).setV 2 b).setV 0xF 0x77) w

/-- V-A46. -/
theorem test_ldImm : (runWord ready 0x6005).readV 0 = 0x05 := by decide

/-- V-A44 and V-A45. -/
theorem test_addImm : (runWord ((ready.setV 1 0xFF).setV 0xF 0x22) 0x7101).readV 1 = 0x00 ∧
    (runWord ((ready.setV 1 0xFF).setV 0xF 0x22) 0x7101).readV 0xF = 0x22 ∧
    (runWord (ready.setV 0xF 0xFF) 0x7F01).readV 0xF = 0x00 := by decide

/-- V-A33. -/
theorem test_ldReg : (runWord (ready.setV 2 0x33) 0x8120).readV 1 = 0x33 := by decide

/-- V-A29. -/
theorem test_orReg : (run12 0x0F 0xF0 0x8121).readV 1 = 0xFF ∧ (run12 0x0F 0xF0 0x8121).readV 0xF = 0x77 := by decide

/-- V-A30. -/
theorem test_andReg : (run12 0x3C 0x0F 0x8122).readV 1 = 0x0C ∧ (run12 0x3C 0x0F 0x8122).readV 0xF = 0x77 := by decide

/-- V-A31. -/
theorem test_xorReg : (run12 0x3C 0x0F 0x8123).readV 1 = 0x33 ∧ (run12 0x3C 0x0F 0x8123).readV 0xF = 0x77 := by decide

/-- V-A3 and V-A5. -/
theorem test_addReg : (run01 0xFF 0x01 0x8014).readV 0 = 0x00 ∧ (run01 0xFF 0x01 0x8014).readV 0xF = 1 ∧
    (run01 0x80 0x7F 0x8014).readV 0 = 0xFF ∧ (run01 0x80 0x7F 0x8014).readV 0xF = 0 := by decide

/-- V-A34 and V-A35: VF as an operand is its old value, and as the destination keeps the carry. -/
theorem test_addReg_vf : (runWord ((ready.setV 1 0x10).setV 0xF 0x05) 0x81F4).readV 1 = 0x15 ∧
    (runWord ((ready.setV 1 0x20).setV 0xF 0xF0) 0x8F14).readV 0xF = 1 := by decide

/-- V-A9 and V-A10. -/
theorem test_subReg : (run01 0x05 0x07 0x8015).readV 0 = 0xFE ∧ (run01 0x05 0x07 0x8015).readV 0xF = 0 ∧
    (run01 0x05 0x05 0x8015).readV 0 = 0x00 ∧ (run01 0x05 0x05 0x8015).readV 0xF = 1 := by decide

/-- V-A15 and V-A16. -/
theorem test_subnReg : (run01 0x07 0x05 0x8017).readV 0 = 0xFE ∧ (run01 0x07 0x05 0x8017).readV 0xF = 0 ∧
    (run01 0x05 0x07 0x8017).readV 0 = 0x02 ∧ (run01 0x05 0x07 0x8017).readV 0xF = 1 := by decide

/-- V-A21 and V-A40. -/
theorem test_shr : (run01 0x81 0x00 0x8016).readV 0 = 0x40 ∧ (run01 0x81 0x00 0x8016).readV 0xF = 1 ∧
    (runWord (ready.setV 0xF 0x03) 0x8F16).readV 0xF = 1 := by decide

/-- V-A26 and V-A42. -/
theorem test_shl : (run01 0x55 0x00 0x800E).readV 0 = 0xAA ∧ (run01 0x55 0x00 0x800E).readV 0xF = 0 ∧
    (runWord (ready.setV 0xF 0x80) 0x8FFE).readV 0xF = 1 := by decide

/-- V-A47: the draw at hand is 0xA7. -/
theorem test_rnd : (runWord { ready with rndIn := [0xA7] } 0xC30F).readV 3 = 0x07 := by decide

/-- V-A48: whatever the draw, a free value here, the mask 0 gives 0. -/
theorem test_rnd_free : (runWord ready 0xC300).readV 3 = 0x00 := by
  show Config.rnd 0 &&& 0x00 = 0x00
  exact BitVec.and_zero

/-! ## Display (V-D) -/

/-- I = 0x300, two sprite bytes there, and the origin in V0 and V1. -/
def sprite (b0 b1 vx vy : Byte) : State :=
  ((((ready.setI 0x300).writeByte 0x300 b0).writeByte 0x301 b1).setV 0 vx).setV 1 vy

/-- The source's scenario W2, columns 2 to 5 of row 0; and V-D9's first draw, which clears a lit pixel. -/
theorem test_drw_bits_and_collision :
    (List.range 8).map ((runWord (sprite 0x3C 0x00 0 0) 0xD012).disp.pixel 0) =
      [false, false, true, true, true, true, false, false] ∧
    (runWord (sprite 0x3C 0x00 0 0) 0xD012).readV 0xF = 0 ∧
    (runWord ((sprite 0x80 0 0 0).showDisplay (Display.blank.setPixel 0 0 true)) 0xD011).disp.pixel 0 0 = false ∧
    (runWord ((sprite 0x80 0 0 0).showDisplay (Display.blank.setPixel 0 0 true)) 0xD011).readV 0xF = 1 := by decide

/-- V-D1, V-D2 and V-D6: pixels are clipped, the origin wraps, and a row at 0x1000 ends the draw without a fault. -/
theorem test_drw_edges :
    (runWord (sprite 0xFF 0x00 60 0) 0xD011).disp.pixel 0 63 = true ∧
    (runWord (sprite 0xFF 0x00 60 0) 0xD011).disp.pixel 0 0 = false ∧
    (runWord (sprite 0x80 0x00 70 0) 0xD011).disp.pixel 0 6 = true ∧
    (runWord ((ready.setI 0xFFF).writeByte 0xFFF 0xC0) 0xD013).disp.pixel 0 1 = true ∧
    (runWord ((ready.setI 0xFFF).writeByte 0xFFF 0xC0) 0xD013).diag = [.drawReadOob] ∧
    (runWord ((ready.setI 0xFFF).writeByte 0xFFF 0xC0) 0xD013).fault = none := by decide

/-- V-D11. -/
theorem test_cls :
    (runWord (ready.showDisplay (Display.blank.setPixel 31 63 true)) 0x00E0).disp.pixel 31 63 = false ∧
    (runWord ready 0x00E0).draw = true := by decide

/-! ## Timers (V-T) -/

/-- V-T1. -/
theorem test_ldVxDt : (runWord { ready with dt := 0x3C } 0xF307).readV 3 = 0x3C := by decide

/-- V-T2. -/
theorem test_ldDtVx : (runWord (ready.setV 4 5) 0xF415).dt = 5 := by decide

/-- V-T3. -/
theorem test_ldStVx : (runWord (ready.setV 2 0x0A) 0xF218).st = 0x0A := by decide

/-! ## I and memory transfer (V-M) -/

/-- V-M1. -/
theorem test_ldI : (runWord ready 0xA300).i = 0x300 := by decide

/-- V-M3 and V-M4. -/
theorem test_addIVx : (runWord ((ready.setI 0x0FFF).setV 1 1) 0xF11E).i = 0x1000 ∧
    (runWord ((ready.setI 0xFFFF).setV 1 2) 0xF11E).i = 0x0001 := by decide

/-- V-M5 and V-M8. -/
theorem test_ldFVx : (runWord (ready.setV 1 0x0A) 0xF129).i = 0x0032 ∧
    (runWord (ready.setV 1 0xFF) 0xF129).i = 0x04FB := by decide

/-- The bytes at `a` and on. -/
def bytesAt (s : State) (a n : Nat) : List Byte := (List.range n).map (fun k => s.readByte (a + k))

/-- V-M13 and V-M14. -/
theorem test_ldBVx : bytesAt (runWord ((ready.setI 0x300).setV 0 254) 0xF033) 0x300 3 = [2, 5, 4] ∧
    bytesAt (runWord ((ready.setI 0xFFD).setV 0 128) 0xF033) 0xFFD 3 = [1, 2, 8] := by decide

/-- V-M15. -/
theorem test_ldBVx_out_of_memory :
    bytesAt (runWord ((ready.setI 0xFFE).setV 0 0x80) 0xF033) 0xFFE 2 = [0, 0] ∧
    (runWord ((ready.setI 0xFFE).setV 0 0x80) 0xF033).diag = [.bcdWriteOob] := by decide

/-- V0 to V2 are 1, 2 and 3. -/
def v123 : State := ((ready.setV 0 1).setV 1 2).setV 2 3

/-- V-M9, the store: the third register falls outside. -/
theorem test_ldMemVx_partial : bytesAt (runWord (v123.setI 0xFFE) 0xF255) 0xFFE 2 = [1, 2] ∧
    (runWord (v123.setI 0xFFE) 0xF255).diag = [.storeOob] ∧ (runWord (v123.setI 0xFFE) 0xF255).i = 0xFFE := by decide

/-- V-M12: sixteen bytes. -/
theorem test_ldMemVx_all : bytesAt (runWord (((ready.setI 0x300).setV 0 0xFF).setV 0xF 0x33) 0xFF55) 0x300 17 =
    [0xFF, 0, 0, 0, 0, 0, 0, 0, 0, 0, 0, 0, 0, 0, 0, 0x33, 0] := by decide

/-- V-M10. -/
theorem test_ldVxMem_partial : (runWord ((v123.setI 0xFFF).writeByte 0xFFF 0x77) 0xF265).readV 0 = 0x77 ∧
    (runWord ((v123.setI 0xFFF).writeByte 0xFFF 0x77) 0xF265).readV 1 = 2 ∧
    (runWord ((v123.setI 0xFFF).writeByte 0xFFF 0x77) 0xF265).diag = [.loadOob] := by decide

/-- V-M17. -/
theorem test_ldVxMem :
    (List.range 3).map (fun k => (runWord ((((ready.setI 0x300).writeByte 0x300 2).writeByte 0x301 5).writeByte 0x302 4)
      0xF265).readV (BitVec.ofNat 4 k)) = [2, 5, 4] := by decide

/-! ## Keypad (V-K) -/

/-- V-K1, V-K2 and V-K5. -/
theorem test_skp : (runWord ((readyKeys 0x0080).setV 1 7) 0xE19E).pc = 0x204 ∧
    (runWord (ready.setV 1 7) 0xE19E).pc = 0x202 ∧
    (runWord ((readyKeys 0x0080).setV 1 0x17) 0xE19E).pc = 0x204 := by decide

/-- The same with KEY_INDEX_POLICY = FAULT. -/
def faultPolicy : State := { ready with params := { Params.default with keyIndex := .fault } }

/-- V-K6. -/
theorem test_skp_range : (runWord (faultPolicy.setV 1 0x10) 0xE19E).fault = some ⟨.keyIndexRange, 0x200⟩ ∧
    (runWord (faultPolicy.setV 1 0x10) 0xE19E).pc = 0x200 := by decide

/-- V-K3 and V-K4. -/
theorem test_sknp : (runWord (ready.setV 1 7) 0xE1A1).pc = 0x204 ∧
    (runWord ((readyKeys 0x0008).setV 1 3) 0xE1A1).pc = 0x202 := by decide

/-- V-K8: the lowest key wins. -/
theorem test_ldVxK_press : (runWord (readyKeys 0x0480) 0xF30A).readV 3 = 7 ∧
    (runWord (readyKeys 0x0480) 0xF30A).kw = .awaitRelease ∧ (runWord (readyKeys 0x0480) 0xF30A).pc = 0x200 := by decide

/-- V-K9 and V-K10. -/
theorem test_ldVxK_release :
    (runWord ((readyKeys 0x0400).setKw .awaitRelease) 0xF30A).pc = 0x200 ∧
    (runWord (ready.setKw .awaitRelease) 0xF30A).kw = .idle ∧
    (runWord (ready.setKw .awaitRelease) 0xF30A).pc = 0x202 := by decide

/-! ## The frame scheduler (V-S) -/

/-- The reset state with the inputs of the coming frame at hand: keys, pause, exit. -/
def frame (keys : BitVec 16) (pause exit : Bool) (s : State) : State := { s with hostIn := [⟨keys, pause, exit⟩] }

/-- V-S3, frame 1: the toggle pauses, and no slot runs. -/
theorem test_frame_pause : (frame 0x0001 true false State.reset).startFrame.run = .paused ∧
    (frame 0x0001 true false State.reset).startFrame.phase = .between ∧
    (frame 0x0001 true false State.reset).startFrame.key[0] = true := by decide

/-- V-S4: exit wins. -/
theorem test_frame_exit : (frame 0x0001 true true State.reset).startFrame.run = .stopped ∧
    (frame 0x0001 true true State.reset).startFrame.key[0] = false := by decide

/-- A running frame has IPF = 11 slots (R283, R290). -/
theorem test_frame_budget : (frame 0 false false State.reset).startFrame.phase = .slots 11 := by decide

/-- V-S2: after the decrement ST is 1 and then 0; DT does not go below 0 (V-T6). -/
theorem test_frame_end :
    ({ ready with st := 2, draw := true } : State).endFrame.st = 1 ∧
    ({ ready with st := 2, draw := true } : State).endFrame.soundOn = true ∧
    ({ ready with st := 1 } : State).endFrame.soundOn = false ∧ ready.endFrame.dt = 0 ∧
    ({ ready with st := 2, draw := true } : State).endFrame.drawReq = true ∧
    ({ ready with st := 2, draw := true } : State).endFrame.draw = false := by decide

/-! ## Witnesses: every hypothesis of a statement can be met

Each is a concrete state and operands that meet all the hypotheses of one statement, or of one clause of it. -/

/-- DecodeFollowsOpcodeMap and NoWordSelectsTwoRows: a word that decodes and selects a row. -/
theorem witness_row_selected : decode .lowByte 0x01E0 = .ok .cls ∧ (Instr.row .lowByte .cls).selects 0x01E0 = true ∧
    Instr.row .lowByte .cls ∈ opcodeMap .lowByte := by decide

/-- The `DecodesAs` clauses of the statements on the one-word families and family 8: a word with its free bits set. -/
theorem witness_decodes_as_family :
    (0x1FFF &&& 0xF000 = (0x1000 : Word) ∧ 0xBFFF &&& 0xF000 = (0xB000 : Word) ∧ 0x3FFF &&& 0xF000 = (0x3000 : Word) ∧
     0x4FFF &&& 0xF000 = (0x4000 : Word) ∧ 0x5FFF &&& 0xF000 = (0x5000 : Word) ∧ 0x9FFF &&& 0xF000 = (0x9000 : Word) ∧
     0x6FFF &&& 0xF000 = (0x6000 : Word) ∧ 0x7FFF &&& 0xF000 = (0x7000 : Word) ∧ 0xAFFF &&& 0xF000 = (0xA000 : Word) ∧
     0xCFFF &&& 0xF000 = (0xC000 : Word) ∧ 0xDFFF &&& 0xF000 = (0xD000 : Word)) ∧
    (0x8FF0 &&& 0xF00F = (0x8000 : Word) ∧ 0x8FF1 &&& 0xF00F = (0x8001 : Word) ∧ 0x8FF2 &&& 0xF00F = (0x8002 : Word) ∧
     0x8FF3 &&& 0xF00F = (0x8003 : Word) ∧ 0x8FF4 &&& 0xF00F = (0x8004 : Word) ∧ 0x8FF5 &&& 0xF00F = (0x8005 : Word) ∧
     0x8FF6 &&& 0xF00F = (0x8006 : Word) ∧ 0x8FF7 &&& 0xF00F = (0x8007 : Word) ∧
     0x8FFE &&& 0xF00F = (0x800E : Word)) := by decide

/-- The same for the rows that a low byte selects. -/
theorem witness_decodes_as_low_byte :
    0x0FE0 &&& 0xF0FF = (0x00E0 : Word) ∧ 0xEF9E &&& 0xF0FF = (0xE09E : Word) ∧ 0xEFA1 &&& 0xF0FF = (0xE0A1 : Word) ∧
    0xFF07 &&& 0xF0FF = (0xF007 : Word) ∧ 0xFF0A &&& 0xF0FF = (0xF00A : Word) ∧ 0xFF15 &&& 0xF0FF = (0xF015 : Word) ∧
    0xFF18 &&& 0xF0FF = (0xF018 : Word) ∧ 0xFF1E &&& 0xF0FF = (0xF01E : Word) ∧ 0xFF29 &&& 0xF0FF = (0xF029 : Word) ∧
    0xFF33 &&& 0xF0FF = (0xF033 : Word) ∧ 0xFF55 &&& 0xF0FF = (0xF055 : Word) ∧
    0xFF65 &&& 0xF0FF = (0xF065 : Word) := by decide

/-- StepRunsDecodedInstruction, at the highest address that can be fetched. -/
theorem witness_step_runs : ∃ s : State, s.phase = .slots (10 + 1) ∧ s.pc.toNat + 1 = 4095 ∧
    (0x1205 : Word).toNat = 256 * (s.readByte s.pc.toNat).toNat + (s.readByte (s.pc.toNat + 1)).toNat ∧
    decode s.params.family0 0x1205 = .ok (.jp 0x205) :=
  ⟨(ready.setPc 0xFFE).withFetchWord 16 0x1205, by decide, by decide, by decide, by decide⟩

/-- UnmappedWordIsNoOp. -/
theorem witness_unmapped : ready.phase = .slots (10 + 1) ∧ ready.pc.toNat + 1 < 4096 ∧
    (0x0000 : Word).toNat = 256 * (ready.readByte ready.pc.toNat).toNat + (ready.readByte (ready.pc.toNat + 1)).toNat ∧
    decode ready.params.family0 0x0000 = .error (.unmapped0 0x0000) := by decide

/-- FatalFaultsAreTaken, one clause after the other, each at its boundary. -/
theorem witness_fatal_faults : fullStack.sp.val = 16 ∧ ready.sp.val = 0 ∧
    ((ready.setPc 0xFFF).phase = .slots (10 + 1) ∧ 0x0FFF ≤ (ready.setPc 0xFFF).pc.toNat) ∧
    (faultPolicy.params.keyIndex = .fault ∧ 0xF < ((faultPolicy.setV 1 0x10).readV 1).toNat) := by decide

/-- FaultsArePrecise, with each of the four codes. -/
theorem witness_faults_precise :
    (∃ t f, step (fullStack.withFetchWord 16 0x2300) = .next t ∧ t.fault = some f ∧ f.code = .stackOverflow) ∧
    (∃ t f, step (ready.withFetchWord 16 0x00EE) = .next t ∧ t.fault = some f ∧ f.code = .stackUnderflow) ∧
    (∃ t f, step (ready.setPc 0xFFF) = .next t ∧ t.fault = some f ∧ f.code = .fetchOutOfRange) ∧
    (∃ t f, step ((faultPolicy.setV 1 0x10).withFetchWord 16 0xE1A1) = .next t ∧ t.fault = some f ∧
      f.code = .keyIndexRange) ∧
    fullStack.fault = none ∧ ready.fault = none ∧ faultPolicy.fault = none :=
  ⟨⟨_, _, rfl, rfl, rfl⟩, ⟨_, _, rfl, rfl, rfl⟩, ⟨_, _, rfl, rfl, rfl⟩, ⟨_, _, rfl, rfl, rfl⟩, rfl, rfl, rfl⟩

/-- A machine that a fault has stopped. -/
def faulted : State :=
  { State.reset with run := .stopped, fault := some ⟨.stackUnderflow, 0x200⟩, hostIn := [⟨0xFFFF, true, false⟩] }

/-- FaultIsFinal. -/
theorem witness_fault_final : faulted.FrameDiscipline ∧ faulted.fault ≠ none ∧ ∃ t, step faulted = .next t :=
  ⟨⟨fun _ h => Phase.noConfusion h, fun _ => rfl, fun _ h => absurd rfl h⟩, by decide, ⟨_, rfl⟩⟩

/-- ReturnPopsEntry, at both ends of the range. -/
theorem witness_return : oneCall.sp.val ≠ 0 ∧ fullStack.sp.val ≠ 0 := by decide

/-- CallPushesReturnAddress, at both ends of the range. -/
theorem witness_call : ready.sp.val < 16 ∧ ({ ready with sp := 15 } : State).sp.val < 16 := by decide

/-- ReturnComesBackToCall: a subroutine whose own call has rewritten the dead entry 1, and the deepest call. -/
theorem witness_call_return :
    (∃ t u : State, ready.sp.val < 16 ∧ exec (.call 0x300) ready.advance = .next t ∧ u.sp = t.sp ∧
      (∀ j (h : j < 16), j < t.sp.val → u.stack[j] = t.stack[j]) ∧ u.stack ≠ t.stack) ∧
    (∃ t : State, ({ ready with sp := 15 } : State).sp.val < 16 ∧
      exec (.call 0x300) ({ ready with sp := 15 } : State).advance = .next t) := by
  refine ⟨⟨_, { (ready.pushPc (by decide)) with stack := (ready.advance.pushPc (by decide)).stack.set 1 0x302 },
    by decide, rfl, rfl, ?_, by decide⟩, ⟨_, by decide, rfl⟩⟩
  intro j h hlt
  have e : j = 0 := by
    have : j < 1 := hlt
    omega
  subst e
  rfl

/-- KeySkips: a register above 0xF under LOW_NIBBLE, and 0xF under FAULT. -/
theorem witness_key_skips : (ready.params.keyIndex = .lowNibble ∧ ((ready.setV 1 0xFF).readV 1).toNat = 0xFF) ∧
    (faultPolicy.params.keyIndex = .fault ∧ ((faultPolicy.setV 1 0xF).readV 1).toNat ≤ 0xF) := by decide

/-- RandomByteIsMasked, the clause on a draw at hand. -/
theorem witness_draw_at_hand : ({ ready with rndIn := [0xA7] } : State).rndIn.head? = some 0xA7 := by decide

/-- GlyphIsAtFiveTimesDigit: the last digit. -/
theorem witness_glyph : ((ready.setV 1 0xF).readV 1).toNat ≤ 0xF ∧
    ∀ a, a < 80 → Memory.lookup (ready.setV 1 0xF).mem a = none := ⟨by decide, fun _ _ => rfl⟩

/-- DecimalDigitsAreStored: the last index that fits, and the first that does not. -/
theorem witness_digits : (ready.setI 0xFFD).i.toNat + 2 < 4096 ∧ 4096 ≤ (ready.setI 0xFFE).i.toNat + 2 := by decide

/-- StoreRegistersUpToBound: a register that is stored at the last address, and addresses outside. -/
theorem witness_store : (1 : Nibble).toNat ≤ (2 : Nibble).toNat ∧
    (ready.setI 0xFFE).i.toNat + (1 : Nibble).toNat < 4096 ∧ 4095 - 2 < (ready.setI 0xFFE).i.toNat ∧
    (ready.setI 0x300).i.toNat + (2 : Nibble).toNat < 0x303 ∧
    4096 ≤ (ready.setI 0xFFE).i.toNat + (2 : Nibble).toNat := by decide

/-- StoreThenLoadRoundTrips, at the memory bound. -/
theorem witness_round_trip : ∃ t, exec (.ldMemVx 2) (v123.setI 0xFFE).advance = .next t := ⟨_, rfl⟩

/-- StoreIsFetchedAtOnce: the last address that can be fetched, with a word whose high byte alone Fx55 covers, from
below; a word that Fx55 covers whole; and a word of Fx33's digits. -/
theorem witness_store_fetched :
    ((v123.setPc 0xFFC).setI 0xFFD).pc.toNat + 2 + 1 = 4095 ∧
    (0x0200 : Word).toNat = 256 * ((v123.setPc 0xFFC).setI 0xFFD).byteAfterBlock 1 0xFFE +
      ((v123.setPc 0xFFC).setI 0xFFD).byteAfterBlock 1 0xFFF ∧
    decode .lowByte 0x0200 = .error (.unmapped0 0x0200) ∧
    (0x1203 : Word).toNat = 256 * (((ready.setI 0x200).setV 0 0x12).setV 2 0x03 |>.setV 1 0x12).byteAfterBlock 2 0x201 +
      (((ready.setI 0x200).setV 0 0x12).setV 2 0x03 |>.setV 1 0x12).byteAfterBlock 2 0x202 ∧
    decode .lowByte 0x1203 = .ok (.jp 0x203) ∧
    (0x0205 : Word).toNat = 256 * ((ready.setI 0x202).setV 0 254).byteAfterDigits 0 0x202 +
      ((ready.setI 0x202).setV 0 254).byteAfterDigits 0 0x203 ∧
    decode .lowByte 0x0205 = .error (.unmapped0 0x0205) := by decide

/-- R84: a fetch straight after Fx55 has stored 1203 over the next word, and after Fx33 has stored 0205 there. -/
theorem test_store_seen_by_next_fetch :
    (runWord (((ready.setI 0x202).setV 0 0x12).setV 1 0x03) 0xF155).fetch = .instr (.jp 0x203) ∧
    (runWord ((ready.setI 0x202).setV 0 254) 0xF033).fetch = .unmapped := by decide

/-- OnlyStoresChangeMemory: Fx33, and Fx55. -/
theorem witness_memory_changes :
    (∃ t, step (((ready.setI 0x300).setV 0 254).withFetchWord 16 0xF033) = .next t ∧
      t.readByte 0x300 ≠ (((ready.setI 0x300).setV 0 254).withFetchWord 16 0xF033).readByte 0x300) ∧
    (∃ t, step ((v123.setI 0x300).withFetchWord 16 0xF055) = .next t ∧
      t.readByte 0x300 ≠ ((v123.setI 0x300).withFetchWord 16 0xF055).readByte 0x300) :=
  ⟨⟨_, rfl, by decide⟩, ⟨_, rfl, by decide⟩⟩

/-- DrawFlipsCoveredPixels: a place that the sprite covers, in the last row and column. -/
theorem witness_covered : (sprite 0x80 0 63 31).SpriteCovers 0 1 1 31 63 := by
  unfold State.SpriteCovers; decide

/-- DrawingTwiceRestores. -/
theorem witness_draw_twice : (0 : Nibble) ≠ 0xF ∧ (1 : Nibble) ≠ 0xF ∧
    ∃ t, exec (.drw 0 1 1) (sprite 0x80 0 0 0).advance = .next t := ⟨by decide, by decide, _, rfl⟩

/-- KeyWaitSeesPress: key 0, key 15 alone, and no key. -/
theorem witness_press : ready.kw ≠ .awaitRelease ∧ (readyKeys 0x8001).key[0] = true ∧
    ((readyKeys 0x8000).key[15] = true ∧ ∀ j (hj : j < 15), (readyKeys 0x8000).key[j] = false) ∧
    ∀ k (h : k < 16), ready.key[k] = false := by decide

/-- KeyWaitSeesRelease: every key released, and one still held. -/
theorem witness_release : (ready.setKw .awaitRelease).kw = .awaitRelease ∧
    (∀ k (h : k < 16), (ready.setKw .awaitRelease).key[k] = false) ∧
    ∃ (k : Nat) (h : k < 16), ((readyKeys 0x8000).setKw .awaitRelease).key[k] = true :=
  ⟨rfl, by decide, 15, by decide, by decide⟩

/-- KeyWaitBlocksWholeBudget, and KeyWaitAtPc with the latch set. -/
theorem witness_blocked :
    ((ready.withFetchWord 16 0xF30A).setKw .awaitPress).run = .running ∧
    ((ready.withFetchWord 16 0xF30A).setKw .awaitPress).fetch = .instr (.ldVxK 3) ∧
    ((ready.withFetchWord 16 0xF30A).setKw .awaitPress).kw ≠ .awaitRelease ∧
    ((ready.withFetchWord 16 0xF30A).setKw .awaitPress).kw ≠ .idle ∧
    ∀ k (h : k < 16), ((ready.withFetchWord 16 0xF30A).setKw .awaitPress).key[k] = false := by decide

/-- KeypadIsSampledAtFrameStart and ParametersAndInputsAreNotTouched: a frame's start, and a slot. -/
theorem witness_frame_start :
    (∃ t, step (frame 0x8001 false false State.reset) = .next t ∧
      (frame 0x8001 false false State.reset).phase = .between ∧ t.run ≠ .stopped) ∧
    (∃ t, step ready = .next t ∧ ready.phase ≠ .between) :=
  ⟨⟨_, rfl, rfl, by decide⟩, ⟨_, rfl, by decide⟩⟩

/-- The reset state, PAUSED. -/
def paused : State := { State.reset with run := .paused }

/-- FrameStartFollowsHostEdges: exit; a frame that pauses, and one that stays PAUSED; one that unpauses, and one that
stays RUNNING. -/
theorem witness_host_edges :
    (frame 0 true true paused).nextHostInput.exitReq = true ∧
    ((frame 0 true false State.reset).run = .running ↔
      (frame 0 true false State.reset).nextHostInput.pauseToggle = true) ∧
    ((frame 0 false false paused).run = .running ↔ (frame 0 false false paused).nextHostInput.pauseToggle = true) ∧
    ¬ ((frame 0 true false paused).run = .running ↔ (frame 0 true false paused).nextHostInput.pauseToggle = true) ∧
    ¬ ((frame 0 false false State.reset).run = .running ↔
      (frame 0 false false State.reset).nextHostInput.pauseToggle = true) ∧
    (frame 0 true false paused).nextHostInput.exitReq = false ∧
    (frame 0 true true paused).phase = .between ∧ paused.run ≠ .stopped ∧ State.reset.run ≠ .stopped := by decide

/-- StoppedIsTerminal. -/
theorem witness_stopped : faulted.run = .stopped ∧ faulted.phase = .between := by decide

/-- RunTransitionsAreComplete: each of the four transitions happens. -/
theorem witness_run_transitions :
    (∃ t, step (frame 0 true false State.reset) = .next t ∧ t.run = .paused ∧ State.reset.run = .running) ∧
    (∃ t, step (frame 0 true false paused) = .next t ∧ t.run = .running) ∧
    (∃ t, step (frame 0 false true paused) = .next t ∧ t.run = .stopped) ∧
    (∃ t, step (ready.setPc 0xFFF) = .next t ∧ t.run = .stopped ∧ ready.run = .running) :=
  ⟨⟨_, rfl, rfl, rfl⟩, ⟨_, rfl, rfl⟩, ⟨_, rfl, rfl⟩, ⟨_, rfl, rfl, rfl⟩⟩

/-- The end of a budget, with ST = 1. -/
def lastSlot : State := { State.reset with phase := .slots 0, st := 1, draw := true }

/-- TimersDecayOncePerFrame: the end, the start, a slot that sets DT and one that sets ST. -/
theorem witness_timers : lastSlot.phase = .slots 0 ∧
    (∃ t, State.reset.phase = .between ∧ step State.reset = .next t) ∧
    (∃ t, ((ready.setV 4 5).withFetchWord 16 0xF415).phase = .slots (10 + 1) ∧
      step ((ready.setV 4 5).withFetchWord 16 0xF415) = .next t ∧ t.dt ≠ ready.dt) ∧
    (∃ t, step ((ready.setV 4 5).withFetchWord 16 0xF418) = .next t ∧ t.st ≠ ready.st) :=
  ⟨rfl, ⟨_, rfl, rfl⟩, ⟨_, rfl, rfl, by decide⟩, ⟨_, rfl, by decide⟩⟩

/-- FrameEndDrivesSignals: the second clause, a frame that pauses. -/
theorem witness_paused_frame : (frame 0 true false State.reset).FrameDiscipline ∧
    (frame 0 true false State.reset).phase = .between ∧
    ∃ t, step (frame 0 true false State.reset) = .next t ∧ t.run = .paused :=
  ⟨⟨fun _ h => Phase.noConfusion h, fun h => absurd rfl h, fun _ _ => rfl⟩, rfl, ⟨_, rfl, rfl⟩⟩

/-- OnlyWritersChangeRegisters. -/
theorem witness_register_changes : ∃ t, step (ready.withFetchWord 16 0x6F42) = .next t ∧
    t.readV 0xF ≠ (ready.withFetchWord 16 0x6F42).readV 0xF := ⟨_, rfl, by decide⟩

/-- OnlyWritersChangeSpecialState: I, the display, the call stack and KW, one after the other. -/
theorem witness_special_changes :
    (∃ t, step (ready.withFetchWord 16 0xA300) = .next t ∧ t.i ≠ ready.i) ∧
    (∃ t, step ((sprite 0x80 0 0 0).withFetchWord 16 0xD011) = .next t ∧ t.disp ≠ ready.disp) ∧
    (∃ t, step (ready.withFetchWord 16 0x2300) = .next t ∧ t.stack ≠ ready.stack ∧ t.sp ≠ ready.sp) ∧
    (∃ t, step (ready.withFetchWord 16 0xF30A) = .next t ∧ t.kw ≠ ready.kw) :=
  ⟨⟨_, rfl, by decide⟩, ⟨_, rfl, by decide⟩, ⟨_, rfl, by decide, by decide⟩, ⟨_, rfl, by decide⟩⟩

/-- DrawFlagIsSetAndCleared: 00E0 and Dxyn, the end of a frame, and a change each way. -/
theorem witness_draw_flag : Draws .cls ∧ Draws (.drw 0 1 0) ∧
    (∃ t, exec .cls ready.advance = .next t) ∧ (∃ t, exec (.drw 0 1 0) ready.advance = .next t) ∧
    (∃ t, step lastSlot = .next t ∧ lastSlot.phase = .slots 0 ∧ t.draw ≠ lastSlot.draw) ∧
    (∃ t, step (ready.withFetchWord 16 0x00E0) = .next t ∧ t.draw ≠ ready.draw) :=
  ⟨Or.inl rfl, Or.inr ⟨0, 1, 0, rfl⟩, ⟨_, rfl⟩, ⟨_, rfl⟩, ⟨_, rfl, rfl, by decide⟩, ⟨_, rfl, by decide⟩⟩

/-- A state in the middle of a budget that meets every invariant with the key-wait latch set. -/
def waiting : State := (ready.withFetchWord 16 0xF30A).setKw .awaitPress

/-- StepKeepsMemoryForm, StepKeepsAddressBounds, StepKeepsFrameDiscipline and StepKeepsKeyWaitAtPc. -/
theorem witness_invariants : waiting.MemoryForm ∧ waiting.AddressBounds ∧ waiting.FrameDiscipline ∧
    waiting.KeyWaitAtPc ∧ ∃ t, step waiting = .next t := by
  refine ⟨by unfold State.MemoryForm; decide, ?_, ⟨?_, fun h => absurd rfl h, fun h => Phase.noConfusion h⟩,
    fun _ => ⟨3, by decide⟩, ⟨_, rfl⟩⟩
  · refine ⟨by decide, fun w hw => ?_⟩
    have e : waiting.stack = Vector.replicate 16 0x0000 := rfl
    rw [e, Vector.toList_replicate] at hw
    rw [List.eq_of_mem_replicate hw]
    decide
  · intro left h
    have e : waiting.phase = .slots 11 := by decide
    rw [e] at h
    cases h
    exact ⟨by decide, by decide⟩

/-- BootMeetsInvariants: a boot that succeeds. -/
theorem witness_boot : ∃ s, boot Params.default (some [0x12, 0x00]) = .ok s ∧ s.readByte 0x200 = 0x12 ∧
    s.readByte 0 = 0xF0 ∧ s.pc = 0x200 := ⟨_, rfl, by decide, by decide, by decide⟩

/-- BootLoadsRom: the longest image (W11); MissingOrOversizedRomFails is in the tests of the image's length. -/
theorem witness_full_rom : (List.replicate 3584 (0x00 : Byte)).length ≤ 3584 := by rw [List.length_replicate]

end Sys2Proof.Tests
end

section
/-! SUPPORT. What a step can do: the inversion of `step`, what the beginning and the end of a frame leave alone, and
what each instruction leaves alone. -/

namespace Sys2Proof.Machine

/-! ## The inversion of a step -/

/-- The states one step can lead to: a frame begins, a frame ends, or a slot cannot be fetched, skips an unmapped
word, or runs an instruction (R120, R280). -/
inductive StepsTo (s : State) : State → Prop
  | startFrame (hp : s.phase = .between) : StepsTo s s.startFrame
  | endFrame (hp : s.phase = .slots 0) : StepsTo s s.endFrame
  | fetchFault (left : Nat) (hp : s.phase = .slots (left + 1)) (hf : s.fetch = .outOfRange) :
      StepsTo s (s.takeSlot left).fetchFault
  | unmapped (left : Nat) (hp : s.phase = .slots (left + 1)) (hf : s.fetch = .unmapped) :
      StepsTo s (s.takeSlot left).advance
  | instr (left : Nat) (i : Instr) (t : State) (hp : s.phase = .slots (left + 1)) (hf : s.fetch = .instr i)
      (hx : exec i (s.takeSlot left).advance = .next t) : StepsTo s t

@[simp] theorem State.fetch_takeSlot (s : State) (n : Nat) : (s.takeSlot n).fetch = s.fetch :=
  State.fetch_congr rfl rfl rfl

theorem stepsTo_of_step {s t : State} (h : step s = .next t) : StepsTo s t := by
  match hp : s.phase with
  | .between =>
    rw [step_between hp] at h
    cases h
    exact .startFrame hp
  | .slots 0 =>
    rw [step_end hp] at h
    cases h
    exact .endFrame hp
  | .slots (left + 1) =>
    rw [step_slot hp] at h
    obtain ⟨hf, hs⟩ | ⟨hf, hs⟩ | ⟨i, hf, hs⟩ := slot_cases (s.takeSlot left) <;>
      rw [State.fetch_takeSlot] at hf <;> rw [hs] at h
    · cases h
      exact .fetchFault left hp hf
    · cases h
      exact .unmapped left hp hf
    · exact .instr left i t hp hf h

/-- A slot that is not out of range begins at 0x0FFE or below (R121). -/
theorem State.pc_le_of_fetch {s : State} (h : s.fetch ≠ .outOfRange) : s.pc.toNat ≤ 0xFFE := by
  by_contra hpc
  apply h
  rw [State.fetch, if_neg (by rw [inMemory, Config.memSize]; omega)]

/-! ## The beginning and the end of a frame -/

section
variable (s : State)

/-- The beginning of a frame touches RUN, the keypad, the outputs and the model's own fields alone (R280 to R282). -/
theorem State.startFrame_shape : s.startFrame =
    { s with run := s.startFrame.run, key := s.startFrame.key, drawReq := s.startFrame.drawReq,
             soundOn := s.startFrame.soundOn, diag := s.startFrame.diag, phase := s.startFrame.phase,
             hostIn := s.hostIn.tail, frameNo := s.frameNo + 1 } := by
  simp only [State.startFrame, State.beginFrame]
  split_ifs <;> rfl

@[simp] theorem State.startFrame_mem : s.startFrame.mem = s.mem := by rw [State.startFrame_shape]
@[simp] theorem State.startFrame_v : s.startFrame.v = s.v := by rw [State.startFrame_shape]
@[simp] theorem State.startFrame_i : s.startFrame.i = s.i := by rw [State.startFrame_shape]
@[simp] theorem State.startFrame_pc : s.startFrame.pc = s.pc := by rw [State.startFrame_shape]
@[simp] theorem State.startFrame_stack : s.startFrame.stack = s.stack := by rw [State.startFrame_shape]
@[simp] theorem State.startFrame_sp : s.startFrame.sp = s.sp := by rw [State.startFrame_shape]
@[simp] theorem State.startFrame_dt : s.startFrame.dt = s.dt := by rw [State.startFrame_shape]
@[simp] theorem State.startFrame_st : s.startFrame.st = s.st := by rw [State.startFrame_shape]
@[simp] theorem State.startFrame_kw : s.startFrame.kw = s.kw := by rw [State.startFrame_shape]
@[simp] theorem State.startFrame_disp : s.startFrame.disp = s.disp := by rw [State.startFrame_shape]
@[simp] theorem State.startFrame_draw : s.startFrame.draw = s.draw := by rw [State.startFrame_shape]
@[simp] theorem State.startFrame_fault : s.startFrame.fault = s.fault := by rw [State.startFrame_shape]
@[simp] theorem State.startFrame_hostIn : s.startFrame.hostIn = s.hostIn.tail := by rw [State.startFrame_shape]
@[simp] theorem State.startFrame_frameNo : s.startFrame.frameNo = s.frameNo + 1 := by
  rw [State.startFrame_shape]
@[simp] theorem State.startFrame_params : s.startFrame.params = s.params := by rw [State.startFrame_shape]

/-- A stopped machine's frame changes the outputs and consumes the host's input, and does nothing else (R289). -/
theorem State.startFrame_of_stopped {s : State} (h : s.run = .stopped) :
    s.startFrame = { s.afterHostInput with drawReq := false, diag := [], soundOn := false } :=
  if_pos h

/-- A frame begins stopped, paused, or running with a whole budget; the last two only if the machine was not
stopped (R281, R283). -/
theorem State.startFrame_run_cases :
    (s.startFrame.run = .stopped ∧ s.startFrame.phase = s.phase) ∨
    (s.run ≠ .stopped ∧ s.startFrame.run = .paused ∧ s.startFrame.phase = s.phase) ∨
    (s.run ≠ .stopped ∧ s.startFrame.run = .running ∧ s.startFrame.phase = .slots s.params.ipf) := by
  rw [State.startFrame, State.beginFrame, State.afterHostInput_run]
  by_cases hstopped : s.run = .stopped
  · rw [if_pos hstopped]
    exact .inl ⟨hstopped, rfl⟩
  rw [if_neg hstopped]
  split
  · exact .inl ⟨rfl, rfl⟩
  generalize (if s.nextHostInput.pauseToggle then _ else _) = r
  split
  · exact .inr (.inl ⟨hstopped, rfl, rfl⟩)
  · exact .inr (.inr ⟨hstopped, rfl, rfl⟩)

end

/-! ## What an instruction does -/

/-- `exec_cases`, read from the state the instruction led to. -/
theorem exec_next_cases {i : Instr} {s t : State} (h : exec i s = .next t) :
    SameOutside s t ∨ ∃ c, t = s.raiseFault c ∧ FaultCause i s c := by
  obtain ⟨t', e, same⟩ | ⟨c, e, cause⟩ := exec_cases i s <;> rw [e] at h <;> cases h
  · exact .inl same
  · exact .inr ⟨c, rfl, cause⟩

theorem execRet_next {s t : State} (h : exec .ret s = .next t) :
    (∃ live, t = s.popPc live) ∨ (s.sp.val = 0 ∧ t = s.raiseFault .stackUnderflow) := by
  simp only [exec, execRet] at h
  split at h
  case isTrue live => cases h; exact .inl ⟨live, rfl⟩
  case isFalse empty => cases h; exact .inr ⟨not_not.1 empty, rfl⟩

theorem execCall_next {nnn : Addr12} {s t : State} (h : exec (.call nnn) s = .next t) :
    (∃ room, t = (s.pushPc room).setPc (addrOperand nnn)) ∨
      (¬ s.sp.val < 16 ∧ t = s.raiseFault .stackOverflow) := by
  simp only [exec, execCall] at h
  split at h
  case isTrue room => cases h; exact .inl ⟨room, rfl⟩
  case isFalse full => cases h; exact .inr ⟨full, rfl⟩

/-- Either key skip: a skip or none by some key, or the fault of the policy FAULT (R260 to R262). -/
theorem execKeySkip_next {ins : Instr} {x : Nibble} {s t : State} (hi : ins = .skp x ∨ ins = .sknp x)
    (h : exec ins s = .next t) : (∃ taken, t = s.skipIf taken) ∨
      (keyIndex s.params.keyIndex (s.readV x) = none ∧ t = s.raiseFault .keyIndexRange) := by
  obtain rfl | rfl := hi <;>
  · simp only [exec, execSkp, execSknp] at h
    split at h <;> cases h
    · exact .inl ⟨_, rfl⟩
    · exact .inr ⟨‹_›, rfl⟩

theorem execLdVxK_next {x : Nibble} {s t : State} (h : exec (.ldVxK x) s = .next t) :
    (s.kw ≠ .awaitRelease ∧ t = s.pollPress x) ∨ (s.kw = .awaitRelease ∧ t = s.pollRelease) := by
  simp only [exec, execLdVxK] at h
  cases hk : s.kw <;> rw [hk] at h <;> cases h
  · exact .inl ⟨nofun, rfl⟩
  · exact .inl ⟨nofun, rfl⟩
  · exact .inr ⟨rfl, rfl⟩

theorem execLdBVx_next {x : Nibble} {s t : State} (h : exec (.ldBVx x) s = .next t) :
    (inMemory (s.i.toNat + 2) ∧ t = s.writeDigits s.i.toNat (s.readV x)) ∨
      (¬ inMemory (s.i.toNat + 2) ∧ t = s.emit .bcdWriteOob) := by
  simp only [exec, execLdBVx] at h
  split at h <;> cases h
  · exact .inl ⟨‹_›, rfl⟩
  · exact .inr ⟨‹_›, rfl⟩

/-- What each instruction leaves alone: a field changes only in its writers (R33 to R35, R38, R42 to R44). -/
structure Footprint (ins : Instr) (s t : State) : Prop where
  v : writesV ins = false → t.v = s.v
  i : ¬ WritesI ins → t.i = s.i
  disp : ¬ Draws ins → t.disp = s.disp
  draw : ¬ Draws ins → t.draw = s.draw
  stack : ¬ UsesStack ins → t.stack = s.stack
  sp : ¬ UsesStack ins → t.sp = s.sp
  kw : (¬ ∃ x, ins = .ldVxK x) → t.kw = s.kw

theorem footprint_setPc (ins : Instr) (s : State) (w : Word) : Footprint ins s (s.setPc w) := by
  constructor <;> intro _ <;> rfl

theorem footprint_raiseFault (ins : Instr) (s : State) (c : FaultCode) : Footprint ins s (s.raiseFault c) := by
  constructor <;> intro _ <;> rfl

theorem footprint_emit (ins : Instr) (s : State) (e : DiagEvent) : Footprint ins s (s.emit e) := by
  constructor <;> intro _ <;> rfl

theorem footprint_skipIf (ins : Instr) (s : State) (b : Bool) : Footprint ins s (s.skipIf b) := by
  rw [State.skipIf_eq]
  exact footprint_setPc ins s _

theorem footprint_storeRegs (ins : Instr) (s : State) (count j : Nat) :
    Footprint ins s (State.storeRegs count j s) := by
  rw [State.storeRegs_shape]
  constructor <;> intro _ <;> rfl

theorem footprint_writesV {ins : Instr} {s t : State} (hw : writesV ins = true)
    (ht : t = { s with v := t.v, pc := t.pc, diag := t.diag, rndIn := t.rndIn, drawNo := t.drawNo }) :
    Footprint ins s t := by
  rw [ht]
  constructor
  · simp [hw]
  all_goals intro _; rfl

theorem footprint_pollPress (s : State) (x : Nibble) : Footprint (.ldVxK x) s (s.pollPress x) := by
  unfold State.pollPress
  split <;> constructor <;> simp [writesV, State.rewind_eq]

theorem footprint_pollRelease (s : State) (x : Nibble) : Footprint (.ldVxK x) s s.pollRelease := by
  unfold State.pollRelease
  split <;> constructor <;> simp [writesV, State.rewind_eq]

theorem exec_footprint {ins : Instr} {s t : State} (h : exec ins s = .next t) : Footprint ins s t := by
  cases ins
  case ret =>
    obtain ⟨live, rfl⟩ | ⟨-, rfl⟩ := execRet_next h
    · constructor <;> simp [UsesStack]
    · exact footprint_raiseFault _ s _
  case call nnn =>
    obtain ⟨room, rfl⟩ | ⟨-, rfl⟩ := execCall_next h
    · constructor <;> simp [UsesStack]
    · exact footprint_raiseFault _ s _
  case skp x | sknp x =>
    obtain ⟨taken, rfl⟩ | ⟨-, rfl⟩ := execKeySkip_next (x := x) (by simp) h
    · exact footprint_skipIf _ s taken
    · exact footprint_raiseFault _ s _
  case ldVxK x =>
    obtain ⟨-, rfl⟩ | ⟨-, rfl⟩ := execLdVxK_next h
    · exact footprint_pollPress s x
    · exact footprint_pollRelease s x
  case ldBVx x =>
    obtain ⟨-, rfl⟩ | ⟨-, rfl⟩ := execLdBVx_next h
    · constructor <;> intro _ <;> rfl
    · exact footprint_emit _ s _
  all_goals cases h
  case seImm | sneImm | seReg | sneReg => exact footprint_skipIf _ s _
  case jp | jpV0 => exact footprint_setPc _ s _
  case cls => constructor <;> simp [Draws]
  case drw => rw [State.emitIf_eq]; constructor <;> simp [Draws, writesV]
  case ldI => constructor <;> simp [WritesI]
  case addIVx => constructor <;> simp [WritesI]
  case ldFVx => constructor <;> simp [WritesI]
  case ldMemVx => exact footprint_storeRegs _ s _ _
  case ldVxMem => rw [State.loadRegs_shape]; exact footprint_writesV rfl rfl
  case ldDtVx => constructor <;> intro _ <;> rfl
  case ldStVx => constructor <;> intro _ <;> rfl
  all_goals exact footprint_writesV rfl rfl

/-- The values PC can have after an instruction that was given the state `s`, where PC holds the instruction's address
plus 2 (R18, R37). -/
inductive NextPc (s : State) : Word → Prop
  | stay : NextPc s s.pc
  | skip : NextPc s (s.pc + 2)
  | back : NextPc s (s.pc - 2)
  | jump (nnn : Addr12) : NextPc s (addrOperand nnn)
  | offset (nnn : Addr12) : NextPc s (s.offsetTarget nnn)
  | pop (live : s.sp.val ≠ 0) : NextPc s (s.stack[s.sp.val - 1]'(by omega))

theorem nextPc_skipIf (s : State) (b : Bool) : NextPc s (s.skipIf b).pc := by
  cases b
  · exact .stay
  · exact .skip

theorem nextPc_pollPress (s : State) (x : Nibble) : NextPc s (s.pollPress x).pc := by
  unfold State.pollPress
  split <;> exact .back

theorem nextPc_pollRelease (s : State) : NextPc s s.pollRelease.pc := by
  unfold State.pollRelease
  split
  · exact .back
  · exact .stay

theorem exec_nextPc {ins : Instr} {s t : State} (h : exec ins s = .next t) : NextPc s t.pc := by
  cases ins
  case ret =>
    obtain ⟨live, rfl⟩ | ⟨-, rfl⟩ := execRet_next h
    · exact .pop live
    · exact .back
  case call nnn =>
    obtain ⟨room, rfl⟩ | ⟨-, rfl⟩ := execCall_next h
    · exact .jump nnn
    · exact .back
  case skp x | sknp x =>
    obtain ⟨taken, rfl⟩ | ⟨-, rfl⟩ := execKeySkip_next (x := x) (by simp) h
    · exact nextPc_skipIf s taken
    · exact .back
  case ldVxK x =>
    obtain ⟨-, rfl⟩ | ⟨-, rfl⟩ := execLdVxK_next h
    · exact nextPc_pollPress s x
    · exact nextPc_pollRelease s
  case ldBVx x => obtain ⟨-, rfl⟩ | ⟨-, rfl⟩ := execLdBVx_next h <;> exact .stay
  all_goals cases h
  case jp nnn => exact .jump nnn
  case jpV0 nnn => exact .offset nnn
  case seImm | sneImm | seReg | sneReg => exact nextPc_skipIf s _
  case drw => rw [State.emitIf_eq]; exact .stay
  case ldMemVx => rw [State.storeRegs_shape]; exact .stay
  case ldVxMem => rw [State.loadRegs_shape]; exact .stay
  all_goals exact .stay

/-- An instruction leaves the stack's entries alone or pushes PC, its own address plus 2 (R38). -/
theorem exec_stack {ins : Instr} {s t : State} (h : exec ins s = .next t) :
    t.stack = s.stack ∨ ∃ room : s.sp.val < 16, t.stack = s.stack.set s.sp.val s.pc room := by
  by_cases uses : UsesStack ins
  · obtain ⟨nnn, rfl⟩ | rfl := uses
    · obtain ⟨room, rfl⟩ | ⟨-, rfl⟩ := execCall_next h
      · exact .inr ⟨room, rfl⟩
      · exact .inl rfl
    · obtain ⟨live, rfl⟩ | ⟨-, rfl⟩ := execRet_next h <;> exact .inl rfl
  · exact .inl ((exec_footprint h).stack uses)

/-! ## Who changed a field -/

/-- A frame's beginning, a slot's increment and the fault of a fetch, all that a step does besides instructions and the
end of a frame, leave `f` alone. -/
structure KeptAroundInstrs {β : Type} (f : State → β) : Prop where
  startFrame : ∀ s : State, f s.startFrame = f s
  fetchFault : ∀ (s : State) (n : Nat), f (s.takeSlot n).fetchFault = f s := by intros; rfl
  advance : ∀ (s : State) (n : Nat), f (s.takeSlot n).advance = f s := by intros; rfl

/-- A step that changes a field is a slot that runs one of the field's writers, or the end of a frame. -/
theorem runsOneOf_or_endFrame_of_changed {β : Type} {f : State → β} {p : Instr → Prop} (kept : KeptAroundInstrs f)
    (writers : ∀ {ins s t}, exec ins s = .next t → ¬ p ins → f t = f s) {s t : State} (h : step s = .next t)
    (changed : f t ≠ f s) : s.RunsOneOf p ∨ (s.phase = .slots 0 ∧ t = s.endFrame) := by
  cases stepsTo_of_step h with
  | startFrame => exact absurd (kept.startFrame s) changed
  | endFrame hp => exact .inr ⟨hp, rfl⟩
  | fetchFault left => exact absurd (kept.fetchFault s left) changed
  | unmapped left => exact absurd (kept.advance s left) changed
  | instr left ins _ hp hf hx =>
    refine .inl ⟨left, ins, hp, hf, ?_⟩
    by_contra notWriter
    exact changed ((writers hx notWriter).trans (kept.advance s left))

theorem runsOneOf_of_changed {β : Type} {f : State → β} {p : Instr → Prop} (kept : KeptAroundInstrs f)
    (endFrame : ∀ s : State, f s.endFrame = f s)
    (writers : ∀ {ins s t}, exec ins s = .next t → ¬ p ins → f t = f s) {s t : State} (h : step s = .next t)
    (changed : f t ≠ f s) : s.RunsOneOf p := by
  obtain runs | ⟨-, rfl⟩ := runsOneOf_or_endFrame_of_changed kept writers h changed
  · exact runs
  · exact absurd (endFrame s) changed

end Sys2Proof.Machine
end

section
/-! SUPPORT. The address bounds (R37, R39). -/

namespace Sys2Proof.Machine

theorem addrOperand_toNat (nnn : Addr12) : (addrOperand nnn).toNat = nnn.toNat := by
  have := nnn.isLt
  rw [addrOperand, BitVec.toNat_setWidth, Nat.mod_eq_of_lt (by omega)]

/-- The sum of Bnnn does not wrap (R147). -/
theorem offsetTarget_toNat (s : State) (nnn : Addr12) :
    (s.offsetTarget nnn).toNat = nnn.toNat + (s.readV 0).toNat := by
  have := nnn.isLt
  have := (s.readV 0).isLt
  rw [State.offsetTarget, State.readVWide, BitVec.toNat_add, addrOperand_toNat, BitVec.toNat_setWidth,
    Nat.mod_eq_of_lt (a := (s.readV 0).toNat) (by omega), Nat.mod_eq_of_lt (by omega)]

theorem NextPc.le {s : State} {w : Word} (h : NextPc s w) (lower : 2 ≤ s.pc.toNat) (upper : s.pc.toNat ≤ 0x1000)
    (stack : ∀ w ∈ s.stack.toList, w.toNat ≤ 0x1000) : w.toNat ≤ 0x10FE := by
  cases h with
  | stay => omega
  | skip => bv_omega
  | back => bv_omega
  | jump nnn => rw [addrOperand_toNat]; omega
  | offset nnn =>
    have := (s.readV 0).isLt
    rw [offsetTarget_toNat]
    omega
  | pop live =>
    have := stack (s.stack[s.sp.val - 1]'(by omega)) (by simp)
    omega

theorem addressBounds_congr {s t : State} (hpc : t.pc = s.pc) (hstack : t.stack = s.stack) :
    t.AddressBounds ↔ s.AddressBounds := by
  simp only [State.AddressBounds, hpc, hstack]

/-- An instruction keeps the bounds where PC, which is what 2nnn pushes, is at most 0x1000. -/
theorem exec_addressBounds {ins : Instr} {s t : State} (h : exec ins s = .next t) (lower : 2 ≤ s.pc.toNat)
    (upper : s.pc.toNat ≤ 0x1000) (stack : ∀ w ∈ s.stack.toList, w.toNat ≤ 0x1000) : t.AddressBounds := by
  refine ⟨(exec_nextPc h).le lower upper stack, fun w hw => ?_⟩
  obtain e | ⟨room, e⟩ := exec_stack h <;> rw [e] at hw
  · exact stack w hw
  · rw [Vector.toList_set] at hw
    obtain hw | rfl := List.mem_or_eq_of_mem_set hw
    · exact stack w hw
    · exact upper

/-- PC after the increment of a slot that could be fetched, and so began at 0x0FFE or below (R120, R121). -/
theorem State.advance_pc_bounds {s : State} (h : s.fetch ≠ .outOfRange) :
    2 ≤ s.advance.pc.toNat ∧ s.advance.pc.toNat ≤ 0x1000 := by
  have := State.pc_le_of_fetch h
  rw [State.advance_eq, State.setPc_pc]
  bv_omega

/-- Settles O54: an instruction is given a PC of at most 0x1000, which bounds what it pushes and where it can go. -/
theorem stepKeepsAddressBounds : Obligations.StepKeepsAddressBounds := by
  intro s t hs h
  have ⟨_, stack⟩ := hs
  cases stepsTo_of_step h with
  | startFrame => exact (addressBounds_congr (by simp) (by simp)).2 hs
  | endFrame => exact (addressBounds_congr rfl rfl).2 hs
  | fetchFault => exact (addressBounds_congr rfl rfl).2 hs
  | unmapped left _ hf =>
    obtain ⟨-, upper⟩ := State.advance_pc_bounds (s := s.takeSlot left) (by simp [hf])
    exact ⟨upper.trans (by decide), stack⟩
  | instr left ins _ _ hf hx =>
    obtain ⟨lower, upper⟩ := State.advance_pc_bounds (s := s.takeSlot left) (by simp [hf])
    exact exec_addressBounds hx lower upper stack

end Sys2Proof.Machine
end

section
/-! SUPPORT. The frame discipline (R46, R283, R286), and a machine whose FAULT is set (R313). -/

namespace Sys2Proof.Machine

theorem frameDiscipline_raiseFaultAt (s : State) (c : FaultCode) (a : Word) :
    (s.raiseFaultAt c a).FrameDiscipline :=
  ⟨nofun, fun _ => rfl, fun _ hr => absurd rfl hr⟩

/-- A slot that completes keeps the discipline: it is one slot less of the same running frame. -/
theorem frameDiscipline_of_slot {s t : State} {left : Nat} (hs : s.FrameDiscipline)
    (hp : s.phase = .slots (left + 1)) (same : SameOutside (s.takeSlot left).advance t) : t.FrameDiscipline := by
  obtain ⟨slots, faulted, -⟩ := hs
  obtain ⟨running, budget⟩ := slots _ hp
  have phase : t.phase = .slots left := same.phase
  refine ⟨fun n hn => ?_, fun hf => ?_, fun hb => ?_⟩
  · rw [phase] at hn
    cases hn
    rw [same.run, same.params]
    exact ⟨running, Nat.le_of_succ_le budget⟩
  · rw [same.fault] at hf
    rw [same.run]
    exact faulted hf
  · rw [phase] at hb
    cases hb

theorem frameDiscipline_startFrame {s : State} (hs : s.FrameDiscipline) (hp : s.phase = .between) :
    s.startFrame.FrameDiscipline := by
  obtain ⟨-, faulted, undrawn⟩ := hs
  obtain ⟨hr, hph⟩ | ⟨alive, hr, hph⟩ | ⟨alive, hr, hph⟩ := s.startFrame_run_cases
  · exact ⟨by simp [hph, hp], fun _ => hr, fun _ h => absurd hr h⟩
  · refine ⟨by simp [hph, hp], fun h => ?_, fun _ _ => ?_⟩
    · exact absurd (faulted (by simpa using h)) alive
    · simpa using undrawn hp alive
  · refine ⟨fun n h => ?_, fun h => ?_, by simp [hph]⟩
    · rw [hph] at h
      cases h
      exact ⟨hr, by simp⟩
    · exact absurd (faulted (by simpa using h)) alive

theorem frameDiscipline_endFrame {s : State} (hs : s.FrameDiscipline) : s.endFrame.FrameDiscipline := by
  obtain ⟨-, faulted, -⟩ := hs
  exact ⟨nofun, faulted, fun _ _ => rfl⟩

/-- Settles O55: a frame's beginning, its end, a fault and a completed slot each keep the discipline. -/
theorem stepKeepsFrameDiscipline : Obligations.StepKeepsFrameDiscipline := by
  intro s t hs h
  cases stepsTo_of_step h with
  | startFrame hp => exact frameDiscipline_startFrame hs hp
  | endFrame => exact frameDiscipline_endFrame hs
  | fetchFault => exact frameDiscipline_raiseFaultAt _ _ _
  | unmapped left hp => exact frameDiscipline_of_slot hs hp ⟨rfl, rfl, rfl, rfl, rfl, rfl, rfl, rfl, rfl⟩
  | instr left ins _ hp _ hx =>
    obtain same | ⟨c, rfl, -⟩ := exec_next_cases hx
    · exact frameDiscipline_of_slot hs hp same
    · exact frameDiscipline_raiseFaultAt _ _ _

/-- A stopped machine runs no slots (R289). -/
theorem State.FrameDiscipline.between_of_stopped {s : State} (hs : s.FrameDiscipline) (stopped : s.run = .stopped) :
    s.phase = .between := by
  match hp : s.phase with
  | .between => rfl
  | .slots left => simp [(hs.1 left hp).1] at stopped

/-- Settles O9: a machine whose FAULT is set is stopped between two frames, and takes an empty frame. -/
theorem faultIsFinal : Obligations.FaultIsFinal := by
  intro s t hs hf h
  have ⟨_, faulted, _⟩ := hs
  have stopped := faulted hf
  rw [step_between (hs.between_of_stopped stopped), State.startFrame_of_stopped stopped] at h
  cases h
  exact ⟨rfl, stopped, rfl, rfl, rfl, rfl, rfl, rfl, rfl, rfl, rfl, rfl, rfl, rfl⟩

end Sys2Proof.Machine
end

section
/-! SUPPORT. Who writes what (R31 to R44). -/

namespace Sys2Proof.Machine

/-- Settles O49, from what each instruction leaves alone. -/
theorem onlyWritersChangeRegisters : Obligations.OnlyWritersChangeRegisters := by
  intro s t j h changed
  refine runsOneOf_of_changed (f := State.v) { startFrame := by simp } (fun _ => rfl)
    (fun hx hw => (exec_footprint hx).v (by simpa using hw)) h ?_
  exact fun same => changed (State.readV_congr same j)

/-- Settles O50, from what each instruction leaves alone. -/
theorem onlyWritersChangeSpecialState : Obligations.OnlyWritersChangeSpecialState := by
  intro s t h
  refine ⟨?_, ?_, ?_, ?_⟩
  · exact runsOneOf_of_changed (f := State.i) { startFrame := by simp } (fun _ => rfl)
      (fun hx => (exec_footprint hx).i) h
  · exact runsOneOf_of_changed (f := State.disp) { startFrame := by simp } (fun _ => rfl)
      (fun hx => (exec_footprint hx).disp) h
  · rintro (changed | changed)
    · exact runsOneOf_of_changed (f := State.stack) { startFrame := by simp } (fun _ => rfl)
        (fun hx => (exec_footprint hx).stack) h changed
    · exact runsOneOf_of_changed (f := State.sp) { startFrame := by simp } (fun _ => rfl)
        (fun hx => (exec_footprint hx).sp) h changed
  · exact runsOneOf_of_changed (f := State.kw) { startFrame := by simp } (fun _ => rfl)
      (fun hx => (exec_footprint hx).kw) h

theorem exec_draw_of_draws {ins : Instr} {s t : State} (hd : Draws ins) (h : exec ins s = .next t) :
    t.draw = true := by
  obtain rfl | ⟨x, y, n, rfl⟩ := hd <;> cases h
  · rfl
  · rw [State.emitIf_eq]
    rfl

/-- Settles O51: besides an instruction that draws, a frame's end alone changes DRAW, and it clears it. -/
theorem drawFlagIsSetAndCleared : Obligations.DrawFlagIsSetAndCleared := by
  refine ⟨fun ins s t hd h => exec_draw_of_draws hd h, fun s t hp h => ?_, fun s t h changed => ?_⟩
  · rw [step_end hp] at h
    cases h
    exact ⟨rfl, rfl⟩
  · obtain runs | ⟨hp, rfl⟩ := runsOneOf_or_endFrame_of_changed (f := State.draw)
      { startFrame := by simp } (fun hx => (exec_footprint hx).draw) h changed
    · exact .inl runs
    · exact .inr ⟨hp, rfl⟩

/-- Neither an instruction that completes nor one that faults touches the parameters or the host's inputs. -/
theorem exec_params_hostIn_frameNo {ins : Instr} {s t : State} (h : exec ins s = .next t) :
    t.params = s.params ∧ t.hostIn = s.hostIn ∧ t.frameNo = s.frameNo := by
  obtain same | ⟨c, rfl, -⟩ := exec_next_cases h
  · exact ⟨same.params, same.hostIn, same.frameNo⟩
  · exact ⟨rfl, rfl, rfl⟩

/-- Settles O52, by the inversion of the step. -/
theorem parametersAndInputsAreNotTouched : Obligations.ParametersAndInputsAreNotTouched := by
  intro s t h
  cases stepsTo_of_step h with
  | startFrame hp => simp [hp]
  | endFrame hp => exact ⟨rfl, fun _ => ⟨rfl, rfl⟩, fun hb => by simp [hp] at hb⟩
  | fetchFault left hp => exact ⟨rfl, fun _ => ⟨rfl, rfl⟩, fun hb => by simp [hp] at hb⟩
  | unmapped left hp => exact ⟨rfl, fun _ => ⟨rfl, rfl⟩, fun hb => by simp [hp] at hb⟩
  | instr left ins _ hp _ hx =>
    obtain ⟨params, inputs⟩ := exec_params_hostIn_frameNo hx
    exact ⟨params, fun _ => inputs, fun hb => by simp [hp] at hb⟩

end Sys2Proof.Machine
end

section
/-! SUPPORT. The state after boot (R48, R340). -/

namespace Sys2Proof.Machine

/-- Before the image is written, memory reads as the font below 0x050 and as zero above (R48, R342). -/
theorem readByte_bootWith (p : Params) (a : Nat) : (State.bootWith p).readByte a = Memory.bootByte p.font a := rfl

/-- Settles O60: memory is read through the font, everything else is the boot state's own field. -/
theorem resetValues : Obligations.ResetValues := by
  refine ⟨rfl, fun p => ⟨fun j => ?_, rfl, rfl, fun a ha => ?_, fun a ha => ?_, rfl, fun j hj => ?_, rfl, rfl,
    fun k => ?_, rfl, fun row col hr hc => ?_, rfl, rfl, rfl⟩⟩
  · simp [State.readV, State.bootWith]
  · simp [readByte_bootWith, Memory.bootByte, ha]
  · simp [readByte_bootWith, Memory.bootByte, ha]
  · simp [State.bootWith]
  · simp [State.keyDown, State.bootWith]
  · simp [State.bootWith, Display.blank]

/-- A boot that succeeds wrote a whole image that fits over the boot state (R345, R346). -/
theorem boot_ok {p : Params} {rom : Option (List Byte)} {s : State} (h : boot p rom = .ok s) :
    ∃ bytes, rom = some bytes ∧ Config.progBase + bytes.length ≤ Config.memSize ∧
      s = State.loadBytes bytes Config.progBase (State.bootWith p) := by
  match rom with
  | none => cases h
  | some bytes =>
    simp only [boot] at h
    split at h
    · rename_i fits
      have fits : bytes.length ≤ 3584 := of_decide_eq_true fits
      cases h
      exact ⟨bytes, rfl, show 512 + bytes.length ≤ 4096 by omega, rfl⟩
    · cases h

theorem inv_of_boot {p : Params} {rom : Option (List Byte)} {s : State} (h : boot p rom = .ok s) : s.Inv := by
  obtain ⟨bytes, -, fits, rfl⟩ := boot_ok h
  have form := State.loadBytes_wf bytes Config.progBase (State.bootWith p) fits rfl
  rw [State.loadBytes_shape]
  have pc : (0x200 : Word).toNat ≤ 0x10FE := by decide
  refine ⟨form, ⟨pc, fun w hw => ?_⟩, ⟨nofun, fun hf => absurd rfl hf, fun _ _ => rfl⟩, fun hk => absurd rfl hk⟩
  have zero : w = 0 := by simpa [State.bootWith] using hw
  simp [zero]

/-- Settles O57: the reset state is what a boot with the empty image creates. -/
theorem bootMeetsInvariants : Obligations.BootMeetsInvariants :=
  ⟨inv_of_boot (p := Params.default) (rom := some []) rfl, fun _ _ _ h => inv_of_boot h⟩

end Sys2Proof.Machine
end

section
/-! SUPPORT. Memory: what each instruction leaves of it, its canonical form, and what a fetch reads after a store
(R70, R73, R84). -/

namespace Sys2Proof.Machine

/-! ## What leaves memory alone -/

section
variable (s : State)

@[simp] theorem State.skipIf_mem (b : Bool) : (s.skipIf b).mem = s.mem := by rw [State.skipIf_eq, State.setPc_mem]

@[simp] theorem State.emitIf_mem (e : DiagEvent) (b : Bool) : (s.emitIf e b).mem = s.mem := by rw [State.emitIf_eq]

@[simp] theorem State.loadRegs_mem (count j : Nat) : (State.loadRegs count j s).mem = s.mem := by
  rw [State.loadRegs_shape]

@[simp] theorem State.pollPress_mem (x : Nibble) : (s.pollPress x).mem = s.mem := by
  unfold State.pollPress
  split <;> rfl

@[simp] theorem State.pollRelease_mem : s.pollRelease.mem = s.mem := by
  unfold State.pollRelease
  split <;> rfl

end

/-- An instruction other than Fx33 and Fx55 leaves memory alone (R73). -/
theorem exec_mem {ins : Instr} {s t : State} (h : exec ins s = .next t) (hn : ¬ Stores ins) : t.mem = s.mem := by
  cases ins
  case ldBVx x => exact absurd (.inl ⟨x, rfl⟩) hn
  case ldMemVx x => exact absurd (.inr ⟨x, rfl⟩) hn
  case ret => obtain ⟨live, rfl⟩ | ⟨-, rfl⟩ := execRet_next h <;> rfl
  case call nnn => obtain ⟨room, rfl⟩ | ⟨-, rfl⟩ := execCall_next h <;> rfl
  case skp x | sknp x =>
    obtain ⟨taken, rfl⟩ | ⟨-, rfl⟩ := execKeySkip_next (x := x) (by simp) h
    · exact s.skipIf_mem taken
    · rfl
  case ldVxK x =>
    obtain ⟨-, rfl⟩ | ⟨-, rfl⟩ := execLdVxK_next h
    · exact s.pollPress_mem x
    · exact s.pollRelease_mem
  all_goals cases h
  case seImm | sneImm | seReg | sneReg => exact s.skipIf_mem _
  case drw => exact State.emitIf_mem _ _ _
  case ldVxMem => exact s.loadRegs_mem _ _
  all_goals rfl

/-! ## The canonical form -/

theorem memoryForm_congr {s t : State} (hm : t.mem = s.mem) (hp : t.params = s.params) :
    t.MemoryForm ↔ s.MemoryForm := by
  simp only [State.MemoryForm, hm, hp]

/-- The three bytes of Fx33 keep the form when the last of them is in memory (R246). -/
theorem State.writeDigits_memoryForm {s : State} {a : Nat} (v : Byte) (ha : inMemory (a + 2)) (hs : s.MemoryForm) :
    (s.writeDigits a v).MemoryForm := by
  have hundredsForm := s.writeByte_wf (hundreds v) (a := a) (by omega) hs
  have tensForm := State.writeByte_wf _ (tens v) (a := a + 1) (by omega) hundredsForm
  exact State.writeByte_wf _ (units v) ha tensForm

theorem exec_memoryForm {ins : Instr} {s t : State} (h : exec ins s = .next t) (hs : s.MemoryForm) :
    t.MemoryForm := by
  by_cases stores : Stores ins
  · obtain ⟨x, rfl⟩ | ⟨x, rfl⟩ := stores
    · obtain ⟨room, rfl⟩ | ⟨-, rfl⟩ := execLdBVx_next h
      · exact State.writeDigits_memoryForm _ room hs
      · exact hs
    · obtain ⟨params, -⟩ := exec_params_hostIn_frameNo h
      cases h
      rw [State.MemoryForm, params]
      exact State.storeRegs_wf _ _ s hs
  · exact (memoryForm_congr (exec_mem h stores) (exec_params_hostIn_frameNo h).1).2 hs

/-- Settles O53: only an instruction touches memory, and its writes are all within the 4096 bytes. -/
theorem stepKeepsMemoryForm : Obligations.StepKeepsMemoryForm := by
  intro s t hs h
  cases stepsTo_of_step h with
  | startFrame => exact (memoryForm_congr (by simp) (by simp)).2 hs
  | endFrame => exact hs
  | fetchFault => exact hs
  | unmapped => exact hs
  | instr left ins _ _ _ hx => exact exec_memoryForm hx hs

/-! ## Who stores, and what is fetched -/

/-- Settles O34, from what each instruction leaves of memory. -/
theorem onlyStoresChangeMemory : Obligations.OnlyStoresChangeMemory := by
  intro s t a h changed
  exact runsOneOf_of_changed (f := fun s => s.readByte a)
    { startFrame := fun s => State.readByte_congr s.startFrame_mem s.startFrame_params a } (fun _ => rfl)
    (fun hx hn => State.readByte_congr (exec_mem hx hn) (exec_params_hostIn_frameNo hx).1 a) h changed

theorem hundreds_toNat (v : Byte) : (hundreds v).toNat = v.toNat / 100 := by
  have := v.isLt
  rw [hundreds, BitVec.toNat_ofNat, Nat.mod_eq_of_lt (by omega)]

theorem tens_toNat (v : Byte) : (tens v).toNat = v.toNat / 10 % 10 := by
  rw [tens, BitVec.toNat_ofNat, Nat.mod_eq_of_lt (by omega)]

theorem units_toNat (v : Byte) : (units v).toNat = v.toNat % 10 := by
  rw [units, BitVec.toNat_ofNat, Nat.mod_eq_of_lt (by omega)]

/-- Fx33 completes with PC kept and memory as `byteAfterDigits` says (R246). -/
theorem execLdBVx_readByte (x : Nibble) (s : State) : ∃ t, exec (.ldBVx x) s = .next t ∧ t.pc = s.pc ∧
    ∀ a, (t.readByte a).toNat = s.byteAfterDigits x a := by
  by_cases room : inMemory (s.i.toNat + 2)
  · refine ⟨_, if_pos room, rfl, fun a => ?_⟩
    have room : s.i.toNat + 2 < 4096 := room
    simp only [State.writeDigits_readByte, State.byteAfterDigits, room, true_and, apply_ite BitVec.toNat,
      hundreds_toNat, tens_toNat, units_toNat]
  · refine ⟨_, if_neg room, rfl, fun a => ?_⟩
    have full : ¬ s.i.toNat + 2 < 4096 := room
    simp only [State.byteAfterDigits, full, false_and, if_false]
    rfl

/-- Fx55 completes with PC kept and memory as `byteAfterBlock` says (R247). -/
theorem execLdMemVx_readByte (x : Nibble) (s : State) : ∃ t, exec (.ldMemVx x) s = .next t ∧ t.pc = s.pc ∧
    ∀ a, (t.readByte a).toNat = s.byteAfterBlock x a := by
  refine ⟨_, rfl, by rw [State.storeRegs_shape], fun a => ?_⟩
  rw [State.storeRegs_readByte, State.byteAfterBlock, apply_ite BitVec.toNat]
  exact if_congr (by rw [Config.memSize]; omega) rfl rfl

/-- What a fetch finds at a word of memory, from the word's two bytes as numbers (R76, R120). -/
theorem State.fetch_cases_of_bytes {u : State} {w : Word} (hr : u.pc.toNat + 1 < 4096)
    (hw : w.toNat = 256 * (u.readByte u.pc.toNat).toNat + (u.readByte (u.pc.toNat + 1)).toNat) :
    (∀ i, decode u.params.family0 w = .ok i → u.fetch = .instr i) ∧
      (∀ e, decode u.params.family0 w = .error e → u.fetch = .unmapped) := by
  rw [State.fetch_of_bytes hr hw]
  constructor <;> intro _ h <;> rw [h]

/-- A fetch after an instruction reads the bytes the instruction left (R84). -/
theorem fetch_after_exec {ins : Instr} {s t u : State} {w : Word} {byteAfter : Nat → Nat}
    (hx : exec ins s.advance = .next t) (bytes : ∀ a, (t.readByte a).toNat = byteAfter a) (hm : u.mem = t.mem)
    (hp : u.params = t.params) (hr : u.pc.toNat + 1 < 4096)
    (hw : w.toNat = 256 * byteAfter u.pc.toNat + byteAfter (u.pc.toNat + 1)) :
    (∀ i, decode s.params.family0 w = .ok i → u.fetch = .instr i) ∧
      (∀ e, decode s.params.family0 w = .error e → u.fetch = .unmapped) := by
  have params : u.params = s.params := hp.trans (exec_params_hostIn_frameNo hx).1
  rw [← params]
  simp only [← bytes, ← State.readByte_congr hm hp] at hw
  exact State.fetch_cases_of_bytes hr hw

/-- Settles O33: memory after each store is what `byteAfterDigits` and `byteAfterBlock` say, and a fetch reads it. -/
theorem storeIsFetchedAtOnce : Obligations.StoreIsFetchedAtOnce := by
  intro x s
  constructor
  · obtain ⟨t, hx, hpc, bytes⟩ := execLdBVx_readByte x s.advance
    exact ⟨t, hx, hpc, fun _ _ => fetch_after_exec hx bytes⟩
  · obtain ⟨t, hx, hpc, bytes⟩ := execLdMemVx_readByte x s.advance
    exact ⟨t, hx, hpc, fun _ _ => fetch_after_exec hx bytes⟩

end Sys2Proof.Machine
end

section
/-! SUPPORT. The opcode map (R111, R112): which words select a row, what they decode to, and the encoder's words. -/

namespace Sys2Proof

/-! ## What a row says of a word's fields -/

section
variable {r : OpcodeRow} {w : Word} (h : r.selects w = true)
include h

/-- A word that selects a row agrees with it on every field the row's mask covers. -/
theorem OpcodeRow.field_of_selects {start len : Nat} (hm : r.mask.extractLsb' start len = BitVec.allOnes len) :
    w.extractLsb' start len = r.bits.extractLsb' start len := by
  rw [← beq_iff_eq.1 h, BitVec.extractLsb'_and, hm, BitVec.and_allOnes]

theorem OpcodeRow.fieldOp_of_selects (hm : fieldOp r.mask = 0xF) : fieldOp w = fieldOp r.bits :=
  OpcodeRow.field_of_selects h hm

theorem OpcodeRow.fieldX_of_selects (hm : fieldX r.mask = 0xF) : fieldX w = fieldX r.bits :=
  OpcodeRow.field_of_selects h hm

theorem OpcodeRow.fieldN_of_selects (hm : fieldN r.mask = 0xF) : fieldN w = fieldN r.bits :=
  OpcodeRow.field_of_selects h hm

theorem OpcodeRow.fieldKK_of_selects (hm : fieldKK r.mask = 0xFF) : fieldKK w = fieldKK r.bits :=
  OpcodeRow.field_of_selects h hm

end

/-! The converse, a lemma per mask. The fields are given as numbers, which is how `decode` compares them. -/

section
variable {w : Word} {op : Nat} (hop : (fieldOp w).toNat = op)
include hop

theorem selects_of_op : OpcodeRow.selects ⟨packXKK (BitVec.ofNat 4 op) 0 0, 0xF000⟩ w = true := by
  subst hop
  rw [BitVec.ofNat_toNat, BitVec.setWidth_eq, OpcodeRow.selects, beq_iff_eq,
    ← packXKK_and_op _ (fieldX w) (fieldKK w), packXKK_fields]

theorem selects_of_op_n {n : Nat} (hn : (fieldN w).toNat = n) :
    OpcodeRow.selects ⟨packXYN (BitVec.ofNat 4 op) 0 0 (BitVec.ofNat 4 n), 0xF00F⟩ w = true := by
  subst hop hn
  simp only [BitVec.ofNat_toNat, BitVec.setWidth_eq, OpcodeRow.selects, beq_iff_eq]
  rw [← packXYN_and_op_n _ (fieldX w) (fieldY w), packXYN_fields]

theorem selects_of_op_kk {kk : Nat} (hkk : (fieldKK w).toNat = kk) :
    OpcodeRow.selects ⟨packXKK (BitVec.ofNat 4 op) 0 (BitVec.ofNat 8 kk), 0xF0FF⟩ w = true := by
  subst hop hkk
  simp only [BitVec.ofNat_toNat, BitVec.setWidth_eq, OpcodeRow.selects, beq_iff_eq]
  rw [← packXKK_and_op_kk _ (fieldX w), packXKK_fields]

/-- The masks of family 0: EXACT_WORD covers `x` as well (R104). -/
theorem selects_of_op_kk_family0 {m : Family0Match} {kk : Nat} (hx : m = .exactWord → fieldX w = 0)
    (hkk : (fieldKK w).toNat = kk) :
    OpcodeRow.selects ⟨packXKK (BitVec.ofNat 4 op) 0 (BitVec.ofNat 8 kk),
      if m = .exactWord then 0xFFFF else 0xF0FF⟩ w = true := by
  cases m
  case lowByte => exact selects_of_op_kk hop hkk
  case exactWord =>
    have whole : w &&& 0xFFFF = w := BitVec.and_allOnes
    subst hop hkk
    simp only [BitVec.ofNat_toNat, BitVec.setWidth_eq, OpcodeRow.selects, beq_iff_eq, if_pos, whole]
    rw [← hx rfl, packXKK_fields]

end

/-! ## A word that selects a row decodes to an instruction of that row -/

/-- The instruction that stands in the row of `i` and has the fields of `w` as its operands. -/
def Instr.withFields (w : Word) : Instr → Instr
  | .cls => .cls
  | .ret => .ret
  | .jp _ => .jp (fieldNNN w)
  | .call _ => .call (fieldNNN w)
  | .seImm _ _ => .seImm (fieldX w) (fieldKK w)
  | .sneImm _ _ => .sneImm (fieldX w) (fieldKK w)
  | .seReg _ _ => .seReg (fieldX w) (fieldY w)
  | .ldImm _ _ => .ldImm (fieldX w) (fieldKK w)
  | .addImm _ _ => .addImm (fieldX w) (fieldKK w)
  | .ldReg _ _ => .ldReg (fieldX w) (fieldY w)
  | .orReg _ _ => .orReg (fieldX w) (fieldY w)
  | .andReg _ _ => .andReg (fieldX w) (fieldY w)
  | .xorReg _ _ => .xorReg (fieldX w) (fieldY w)
  | .addReg _ _ => .addReg (fieldX w) (fieldY w)
  | .subReg _ _ => .subReg (fieldX w) (fieldY w)
  | .shr _ => .shr (fieldX w)
  | .subnReg _ _ => .subnReg (fieldX w) (fieldY w)
  | .shl _ => .shl (fieldX w)
  | .sneReg _ _ => .sneReg (fieldX w) (fieldY w)
  | .ldI _ => .ldI (fieldNNN w)
  | .jpV0 _ => .jpV0 (fieldNNN w)
  | .rnd _ _ => .rnd (fieldX w) (fieldKK w)
  | .drw _ _ _ => .drw (fieldX w) (fieldY w) (fieldN w)
  | .skp _ => .skp (fieldX w)
  | .sknp _ => .sknp (fieldX w)
  | .ldVxDt _ => .ldVxDt (fieldX w)
  | .ldVxK _ => .ldVxK (fieldX w)
  | .ldDtVx _ => .ldDtVx (fieldX w)
  | .ldStVx _ => .ldStVx (fieldX w)
  | .addIVx _ => .addIVx (fieldX w)
  | .ldFVx _ => .ldFVx (fieldX w)
  | .ldBVx _ => .ldBVx (fieldX w)
  | .ldMemVx _ => .ldMemVx (fieldX w)
  | .ldVxMem _ => .ldVxMem (fieldX w)

@[simp] theorem Instr.row_withFields (m : Family0Match) (w : Word) (i : Instr) :
    (i.withFields w).row m = i.row m := by
  cases i <;> rfl

/-- No operand is lost in the encoding (R101). -/
@[simp] theorem Instr.withFields_encode (i : Instr) : i.withFields (encode i) = i := by
  cases i <;> simp [Instr.withFields, encode]

/-- A word of a row decodes to the row's instruction with the operands that the word holds (R101, R111). -/
theorem decode_of_selects {m : Family0Match} {i : Instr} {w : Word} (h : (i.row m).selects w = true) :
    decode m w = .ok (i.withFields w) := by
  cases i <;> simp only [Instr.row] at h
  case cls | ret =>
    cases m
    case lowByte =>
      rw [decode, OpcodeRow.fieldOp_of_selects h rfl, decodeFamily0, OpcodeRow.fieldKK_of_selects h rfl]
      rfl
    case exactWord =>
      rw [decode, OpcodeRow.fieldOp_of_selects h rfl, decodeFamily0, OpcodeRow.fieldKK_of_selects h rfl,
        OpcodeRow.fieldX_of_selects h rfl]
      rfl
  case ldReg | orReg | andReg | xorReg | addReg | subReg | shr | subnReg | shl =>
    rw [decode, OpcodeRow.fieldOp_of_selects h rfl, decodeFamily8, OpcodeRow.fieldN_of_selects h rfl]
    rfl
  case skp | sknp =>
    rw [decode, OpcodeRow.fieldOp_of_selects h rfl, decodeFamilyE, OpcodeRow.fieldKK_of_selects h rfl]
    rfl
  case ldVxDt | ldVxK | ldDtVx | ldStVx | addIVx | ldFVx | ldBVx | ldMemVx | ldVxMem =>
    rw [decode, OpcodeRow.fieldOp_of_selects h rfl, decodeFamilyF, OpcodeRow.fieldKK_of_selects h rfl]
    rfl
  all_goals
    rw [decode, OpcodeRow.fieldOp_of_selects h rfl]
    rfl

/-! ## A word that decodes selects the row of its instruction -/

section
variable {m : Family0Match} {w : Word} {i : Instr}

theorem selects_of_decodeFamily0 (hop : (fieldOp w).toNat = 0x0) (h : decodeFamily0 m w = .ok i) :
    (i.row m).selects w = true := by
  unfold decodeFamily0 at h
  split_ifs at h with rejected <;> cases h
  all_goals
    have hx : m = .exactWord → fieldX w = 0 := fun exact => not_not.1 fun ne => rejected ⟨exact, ne⟩
    exact selects_of_op_kk_family0 hop hx (congrArg BitVec.toNat ‹fieldKK w = _›)

theorem selects_of_decodeFamily8 (hop : (fieldOp w).toNat = 0x8) (h : decodeFamily8 w = .ok i) :
    (i.row m).selects w = true := by
  unfold decodeFamily8 at h
  split at h <;> cases h
  all_goals exact selects_of_op_n hop ‹_›

theorem selects_of_decodeFamilyE (hop : (fieldOp w).toNat = 0xE) (h : decodeFamilyE w = .ok i) :
    (i.row m).selects w = true := by
  unfold decodeFamilyE at h
  split at h <;> cases h
  all_goals exact selects_of_op_kk hop ‹_›

theorem selects_of_decodeFamilyF (hop : (fieldOp w).toNat = 0xF) (h : decodeFamilyF w = .ok i) :
    (i.row m).selects w = true := by
  unfold decodeFamilyF at h
  split at h <;> cases h
  all_goals exact selects_of_op_kk hop ‹_›

theorem selects_of_decode (h : decode m w = .ok i) : (i.row m).selects w = true := by
  unfold decode at h
  split at h
  case h_1 hop => exact selects_of_decodeFamily0 hop h
  case h_9 hop => exact selects_of_decodeFamily8 hop h
  case h_15 hop => exact selects_of_decodeFamilyE hop h
  case h_16 =>
    have hop : (fieldOp w).toNat = 0xF := by
      have := (fieldOp w).isLt
      simp only [imp_false] at *
      omega
    exact selects_of_decodeFamilyF hop h
  all_goals
    cases h
    exact selects_of_op ‹_›

end

/-! ## The encoder (R111) -/

/-- The family RowMatch as one statement. -/
theorem row_selects_encode (m : Family0Match) (i : Instr) : (i.row m).selects (encode i) = true :=
  match i with
  | .cls => Laws.RowMatch.cls m
  | .ret => Laws.RowMatch.ret m
  | .jp nnn => Laws.RowMatch.jp nnn m
  | .call nnn => Laws.RowMatch.call nnn m
  | .seImm x kk => Laws.RowMatch.seImm x kk m
  | .sneImm x kk => Laws.RowMatch.sneImm x kk m
  | .seReg x y => Laws.RowMatch.seReg x y m
  | .ldImm x kk => Laws.RowMatch.ldImm x kk m
  | .addImm x kk => Laws.RowMatch.addImm x kk m
  | .ldReg x y => Laws.RowMatch.ldReg x y m
  | .orReg x y => Laws.RowMatch.orReg x y m
  | .andReg x y => Laws.RowMatch.andReg x y m
  | .xorReg x y => Laws.RowMatch.xorReg x y m
  | .addReg x y => Laws.RowMatch.addReg x y m
  | .subReg x y => Laws.RowMatch.subReg x y m
  | .shr x => Laws.RowMatch.shr x m
  | .subnReg x y => Laws.RowMatch.subnReg x y m
  | .shl x => Laws.RowMatch.shl x m
  | .sneReg x y => Laws.RowMatch.sneReg x y m
  | .ldI nnn => Laws.RowMatch.ldI nnn m
  | .jpV0 nnn => Laws.RowMatch.jpV0 nnn m
  | .rnd x kk => Laws.RowMatch.rnd x kk m
  | .drw x y n => Laws.RowMatch.drw x y n m
  | .skp x => Laws.RowMatch.skp x m
  | .sknp x => Laws.RowMatch.sknp x m
  | .ldVxDt x => Laws.RowMatch.ldVxDt x m
  | .ldVxK x => Laws.RowMatch.ldVxK x m
  | .ldDtVx x => Laws.RowMatch.ldDtVx x m
  | .ldStVx x => Laws.RowMatch.ldStVx x m
  | .addIVx x => Laws.RowMatch.addIVx x m
  | .ldFVx x => Laws.RowMatch.ldFVx x m
  | .ldBVx x => Laws.RowMatch.ldBVx x m
  | .ldMemVx x => Laws.RowMatch.ldMemVx x m
  | .ldVxMem x => Laws.RowMatch.ldVxMem x m

@[simp] theorem decode_encode (m : Family0Match) (i : Instr) : decode m (encode i) = .ok i := by
  rw [decode_of_selects (row_selects_encode m i), Instr.withFields_encode]

/-- Settles O1: the two bytes spell the word of the instruction, which selects the instruction's own row. -/
theorem encodeThenDecodeIsIdentity : Obligations.EncodeThenDecodeIsIdentity := by
  intro m i rest
  simp only [encodeBytes, List.cons_append, List.nil_append, decodeBytes, wordOfBytes_bytes, decode_encode]

/-! ## The map as a list -/

/-- `rowSamples` has an instruction of every row. -/
theorem Instr.withFields_zero_mem_rowSamples (i : Instr) : i.withFields 0 ∈ rowSamples := by
  cases i <;> simp [Instr.withFields, rowSamples, fieldX, fieldY, fieldN, fieldKK, fieldNNN]

theorem row_mem_opcodeMap (m : Family0Match) (i : Instr) : i.row m ∈ opcodeMap m :=
  List.mem_map.2 ⟨_, i.withFields_zero_mem_rowSamples, i.row_withFields m 0⟩

theorem exists_row_of_mem_opcodeMap {m : Family0Match} {r : OpcodeRow} (h : r ∈ opcodeMap m) :
    ∃ i : Instr, i.row m = r := by
  obtain ⟨i, -, row⟩ := List.mem_map.1 h
  exact ⟨i, row⟩

/-- Settles O2: decoding and selecting a row imply each other. -/
theorem decodeFollowsOpcodeMap : Obligations.DecodeFollowsOpcodeMap := by
  refine fun m w => ⟨fun i => selects_of_decode, ?_, ?_⟩
  · rintro ⟨i, h⟩
    exact ⟨i.row m, row_mem_opcodeMap m i, selects_of_decode h⟩
  · rintro ⟨r, hr, h⟩
    obtain ⟨i, rfl⟩ := exists_row_of_mem_opcodeMap hr
    exact ⟨i.withFields w, decode_of_selects h⟩

/-- A word decodes to one instruction, so two rows it selects are that instruction's row (R112). -/
theorem row_eq_of_selects {m : Family0Match} {w : Word} {i j : Instr} (hi : (i.row m).selects w = true)
    (hj : (j.row m).selects w = true) : i.row m = j.row m := by
  have decoded : i.withFields w = j.withFields w :=
    Except.ok.inj ((decode_of_selects hi).symm.trans (decode_of_selects hj))
  rw [← i.row_withFields m w, decoded, j.row_withFields]

/-- Settles O3: the rows are different as data, and a word selects the row of what it decodes to alone. -/
theorem noWordSelectsTwoRows : Obligations.NoWordSelectsTwoRows := by
  constructor
  · intro m
    cases m <;> decide
  · intro m w r₁ r₂ h₁ h₂ selects₁ selects₂
    obtain ⟨i, rfl⟩ := exists_row_of_mem_opcodeMap h₁
    obtain ⟨j, rfl⟩ := exists_row_of_mem_opcodeMap h₂
    exact row_eq_of_selects selects₁ selects₂

/-- Settles O4, by evaluating the decoder. -/
theorem sampleWordsDecode : Obligations.SampleWordsDecode := by
  unfold Obligations.SampleWordsDecode
  decide

end Sys2Proof
end

section
/-! SUPPORT. The instruction cycle (R110, R120). -/

namespace Sys2Proof.Machine

theorem step_of_fetch_instr {s : State} {left : Nat} {i : Instr} (hp : s.phase = .slots (left + 1))
    (hf : s.fetch = .instr i) : step s = exec i (s.takeSlot left).advance := by
  rw [step_slot hp, slot, State.fetch_takeSlot, hf]

theorem step_of_fetch_unmapped {s : State} {left : Nat} (hp : s.phase = .slots (left + 1))
    (hf : s.fetch = .unmapped) : step s = .next (s.takeSlot left).advance := by
  rw [step_slot hp, slot, State.fetch_takeSlot, hf, execUnmapped]

/-- Settles O5: the fetch finds what the two bytes spell. -/
theorem stepRunsDecodedInstruction : Obligations.StepRunsDecodedInstruction := by
  intro s left w i hp hr hw hd
  exact step_of_fetch_instr hp ((State.fetch_cases_of_bytes hr hw).1 i hd)

/-- Settles O6: a fetch of an unmapped word leaves the pre-increment alone. -/
theorem unmappedWordIsNoOp : Obligations.UnmappedWordIsNoOp := by
  intro s left w e hp hr hw hd
  exact step_of_fetch_unmapped hp ((State.fetch_cases_of_bytes hr hw).2 e hd)

end Sys2Proof.Machine
end

section
/-! SUPPORT. Control flow (R140 to R148), and how a word of a given row decodes. -/

namespace Sys2Proof.Machine

/-- The words of the row of `i` decode as that row's instruction, where the row is the same under both values of
FAMILY0_MATCH (R101, R111). -/
theorem decodesAs_withFields (i : Instr) {mask bits : Word} (row : ∀ m, i.row m = ⟨bits, mask⟩) :
    DecodesAs mask bits (fun w => i.withFields w) := by
  intro m w h
  apply decode_of_selects
  rw [row, OpcodeRow.selects, beq_iff_eq]
  exact h

/-! ## Jumps -/

/-- Settles O13: the operand is nnn, widened. -/
theorem jumpSetsPc : Obligations.JumpSetsPc :=
  ⟨decodesAs_withFields (.jp 0) (fun _ => rfl), fun nnn _ => ⟨_, rfl, rfl, addrOperand_toNat nnn⟩⟩

/-- Settles O14: the sum does not reach 2^16. -/
theorem jumpAddsV0 : Obligations.JumpAddsV0 :=
  ⟨decodesAs_withFields (.jpV0 0) (fun _ => rfl), fun nnn s => ⟨_, rfl, rfl, offsetTarget_toNat s nnn⟩⟩

/-! ## Skips -/

section
variable (s : State)

/-- A skip goes from the instruction's address plus 2 to its address plus 4 (R148). -/
theorem State.skipIf_advance (taken : Bool) :
    s.advance.skipIf taken = { s with pc := if taken then s.pc + 4 else s.pc + 2 } := by
  have twoWords : s.pc + 2 + 2 = s.pc + 4 := BitVec.add_assoc s.pc 2 2
  rw [State.skipIf_eq, State.advance_eq, State.setPc_pc, twoWords]
  rfl

theorem State.skipIf_advance_beq (a b : Byte) :
    s.advance.skipIf (a == b) = { s with pc := if a = b then s.pc + 4 else s.pc + 2 } := by
  simp only [State.skipIf_advance, beq_iff_eq]

theorem State.skipIf_advance_bne (a b : Byte) :
    s.advance.skipIf (a != b) = { s with pc := if a = b then s.pc + 2 else s.pc + 4 } := by
  simp only [State.skipIf_advance, bne_iff_ne, ite_not]

end

/-- Settles O15: each is a skip on the registers as they are at the slot's beginning. -/
theorem registerSkips : Obligations.RegisterSkips := by
  refine ⟨decodesAs_withFields (.seImm 0 0) (fun _ => rfl), decodesAs_withFields (.sneImm 0 0) (fun _ => rfl),
    decodesAs_withFields (.seReg 0 0) (fun _ => rfl), decodesAs_withFields (.sneReg 0 0) (fun _ => rfl),
    fun x y kk s => ⟨?_, ?_, ?_, ?_⟩⟩
  · exact congrArg _ (s.skipIf_advance_beq (s.readV x) kk)
  · exact congrArg _ (s.skipIf_advance_bne (s.readV x) kk)
  · exact congrArg _ (s.skipIf_advance_beq (s.readV x) (s.readV y))
  · exact congrArg _ (s.skipIf_advance_bne (s.readV x) (s.readV y))

/-! ## Calls and returns -/

theorem execRet_of_live {s : State} (live : s.sp.val ≠ 0) : exec .ret s = .next (s.popPc live) :=
  dif_pos live

theorem execCall_of_room {s : State} (nnn : Addr12) (room : s.sp.val < 16) :
    exec (.call nnn) s = .next ((s.pushPc room).setPc (addrOperand nnn)) :=
  dif_pos room

/-- Settles O10: the entry below SP is in range. -/
theorem returnPopsEntry : Obligations.ReturnPopsEntry := by
  intro s live
  refine ⟨_, execRet_of_live (s := s.advance) live, rfl, Nat.succ_pred live, ?_⟩
  exact Vector.getElem?_eq_getElem _

/-- Settles O11: the push writes the entry at SP alone. -/
theorem callPushesReturnAddress : Obligations.CallPushesReturnAddress := by
  intro nnn s room
  refine ⟨_, execCall_of_room (s := s.advance) nnn room, rfl, rfl, addrOperand_toNat nnn, fun j hj => ?_⟩
  exact (Vector.getElem_set room hj).trans (if_congr eq_comm rfl rfl)

/-- Settles O12: the return pops the entry that the call pushed, which is live until then, and the entries below it
were live all along. -/
theorem returnComesBackToCall : Obligations.ReturnComesBackToCall := by
  intro nnn s t u room hcall hsp kept
  obtain ⟨t', hcall', -, deeper, -, pushed⟩ := callPushesReturnAddress nnn s room
  obtain rfl : t' = t := Host.Outcome.next.inj (hcall'.symm.trans hcall)
  have live : u.sp.val ≠ 0 := by omega
  obtain ⟨r, hret, frame, shallower, popped⟩ := returnPopsEntry u live
  have depth : r.sp.val = s.sp.val := by omega
  have stack : r.stack = u.stack := (congrArg State.stack frame :)
  refine ⟨r, hret, ?_, Fin.ext depth, fun j hj below => ?_⟩
  · have entry : u.stack[s.sp.val] = s.pc + 2 := by
      rw [kept _ room (by omega), pushed _ room, if_pos rfl]
    simp only [depth, Vector.getElem?_eq_getElem room, entry, Option.some.injEq] at popped
    exact popped.symm
  · simp only [stack]
    rw [kept j hj (by omega), pushed j hj, if_neg (by omega)]

end Sys2Proof.Machine
end

section
/-! SUPPORT. Register arithmetic and logic (R170 to R184). -/

namespace Sys2Proof.Machine

/-! ## The flags as numbers -/

theorem flagByte_decide_toNat (p : Prop) [Decidable p] : (flagByte (decide p)).toNat = if p then 1 else 0 := by
  by_cases h : p <;> simp [flagByte, h]

theorem carryFlag_toNat (a b : Byte) : (carryFlag a b).toNat = if a.toNat + b.toNat > 255 then 1 else 0 :=
  flagByte_decide_toNat _

theorem noBorrowFlag_toNat (a b : Byte) : (noBorrowFlag a b).toNat = if a.toNat ≥ b.toNat then 1 else 0 :=
  flagByte_decide_toNat _

/-- A flag that copies a bit is that bit's digit of the byte (R179, R181). -/
theorem flagByte_getLsbD_toNat (a : Byte) (k : Nat) : (flagByte (a.getLsbD k)).toNat = a.toNat / 2 ^ k % 2 := by
  rw [BitVec.getLsbD, Nat.testBit_eq_decide_div_mod_eq, flagByte_decide_toNat]
  split <;> omega

theorem lowBitFlag_toNat (a : Byte) : (lowBitFlag a).toNat = a.toNat % 2 := by
  rw [lowBitFlag, flagByte_getLsbD_toNat, Nat.pow_zero, Nat.div_one]

theorem highBitFlag_toNat (a : Byte) : (highBitFlag a).toNat = a.toNat / 128 := by
  have := a.isLt
  rw [highBitFlag, flagByte_getLsbD_toNat]
  omega

/-! ## The results as numbers -/

theorem byte_sub_toNat (a b : Byte) : (a - b).toNat = (256 + a.toNat - b.toNat) % 256 := by
  have := b.isLt
  rw [BitVec.toNat_sub]
  omega

theorem byte_shiftLeft_one_toNat (a : Byte) : (a <<< 1).toNat = 2 * a.toNat % 256 := by
  rw [BitVec.toNat_shiftLeft, Nat.shiftLeft_eq, Nat.mul_comm]

theorem byte_shiftRight_one_toNat (a : Byte) : (a >>> 1).toNat = a.toNat / 2 := by
  rw [BitVec.toNat_ushiftRight, Nat.shiftRight_eq_div_pow, Nat.pow_one]

/-! ## What an instruction of the family does to the registers -/

section
variable {i : Instr} {s : State} {x : Nibble} {r f : Byte}

/-- An instruction without a flag: the destination receives the result, VF is an ordinary register. -/
theorem exec_of_setV (h : exec i s.advance = .next (s.advance.setV x r)) :
    ∃ t, exec i s.advance = .next t ∧ t = { s.advance with v := t.v } ∧
      ∀ j, t.readV j = if j = x then r else s.readV j :=
  ⟨_, h, rfl, fun j => s.advance.readV_setV x j r⟩

/-- An instruction with a flag, the result and the flag given as numbers (R170). -/
theorem exec_of_setResultFlag {result flag : Nat} (hr : r.toNat = result) (hf : f.toNat = flag)
    (h : exec i s.advance = .next (s.advance.setResultFlag x r f)) :
    ∃ t, exec i s.advance = .next t ∧ t = { s.advance with v := t.v } ∧
      ∀ j, (t.readV j).toNat = if j = 0xF then flag else if j = x then result else (s.readV j).toNat := by
  refine ⟨_, h, rfl, fun j => ?_⟩
  rw [State.readV_setResultFlag, apply_ite BitVec.toNat, apply_ite BitVec.toNat, hf, hr]
  rfl

end

/-! ## Without a flag -/

/-- Settles O17: one register is written. -/
theorem loadImmediateWritesRegister : Obligations.LoadImmediateWritesRegister :=
  ⟨decodesAs_withFields (.ldImm 0 0) (fun _ => rfl), fun _ _ _ => exec_of_setV rfl⟩

/-- Settles O18: each writes one register, from the registers as they are at the slot's beginning. -/
theorem logicWritesOneRegister : Obligations.LogicWritesOneRegister :=
  ⟨decodesAs_withFields (.ldReg 0 0) (fun _ => rfl), decodesAs_withFields (.orReg 0 0) (fun _ => rfl),
    decodesAs_withFields (.andReg 0 0) (fun _ => rfl), decodesAs_withFields (.xorReg 0 0) (fun _ => rfl),
    fun _ _ _ => ⟨exec_of_setV rfl, exec_of_setV rfl, exec_of_setV rfl, exec_of_setV rfl⟩⟩

/-- Settles O19: the sum of two bytes as a byte is the sum modulo 256. -/
theorem addImmediateHasNoFlag : Obligations.AddImmediateHasNoFlag := by
  refine ⟨decodesAs_withFields (.addImm 0 0) (fun _ => rfl), fun x kk s => ?_⟩
  obtain ⟨t, ht, frame, read⟩ :=
    exec_of_setV (i := .addImm x kk) (s := s) (x := x) (r := s.readV x + kk) rfl
  refine ⟨t, ht, frame, fun j => ?_⟩
  rw [read, apply_ite BitVec.toNat, BitVec.toNat_add]

/-! ## With a flag -/

/-- Settles O20: the flag is written last, and the carry is that of the sum before its reduction. -/
theorem addWritesCarry : Obligations.AddWritesCarry :=
  ⟨decodesAs_withFields (.addReg 0 0) (fun _ => rfl), fun _ _ _ =>
    exec_of_setResultFlag (BitVec.toNat_add _ _) (carryFlag_toNat _ _) rfl⟩

/-- Settles O21: the flag is written last, from the operands before the subtraction. -/
theorem subtractWritesNoBorrow : Obligations.SubtractWritesNoBorrow :=
  ⟨decodesAs_withFields (.subReg 0 0) (fun _ => rfl), fun _ _ _ =>
    exec_of_setResultFlag (byte_sub_toNat _ _) (noBorrowFlag_toNat _ _) rfl⟩

/-- Settles O22: as O21, with Vy the minuend. -/
theorem reverseSubtractWritesNoBorrow : Obligations.ReverseSubtractWritesNoBorrow :=
  ⟨decodesAs_withFields (.subnReg 0 0) (fun _ => rfl), fun _ _ _ =>
    exec_of_setResultFlag (byte_sub_toNat _ _) (noBorrowFlag_toNat _ _) rfl⟩

/-- Settles O23: the bits shifted out are the byte's lowest and highest. -/
theorem shiftsInPlace : Obligations.ShiftsInPlace :=
  ⟨decodesAs_withFields (.shr 0) (fun _ => rfl), decodesAs_withFields (.shl 0) (fun _ => rfl), fun _ _ =>
    ⟨exec_of_setResultFlag (byte_shiftRight_one_toNat _) (lowBitFlag_toNat _) rfl,
      exec_of_setResultFlag (byte_shiftLeft_one_toNat _) (highBitFlag_toNat _) rfl⟩⟩

/-! ## The random byte (R182) -/

theorem State.nextRnd_of_head? {s : State} {b : Byte} (h : s.rndIn.head? = some b) : s.nextRnd = b := by
  obtain ⟨rest, hrnd⟩ := List.head?_eq_some_iff.mp h
  rw [State.nextRnd, hrnd]

/-- Settles O24: the byte is the model's draw, whatever it is. -/
theorem randomByteIsMasked : Obligations.RandomByteIsMasked :=
  ⟨decodesAs_withFields (.rnd 0 0) (fun _ => rfl), fun x kk s =>
    ⟨_, s.nextRnd, rfl, rfl, fun _ => State.nextRnd_of_head?,
      fun j => s.advance.afterRnd.readV_setV x j (s.nextRnd &&& kk)⟩⟩

end Sys2Proof.Machine
end

section
/-! SUPPORT. The display (R210 to R213). -/

namespace Sys2Proof.Machine

/-! ## Clear -/

/-- Settles O35: every pixel of the blank picture is unlit. -/
theorem clearBlanksDisplay : Obligations.ClearBlanksDisplay :=
  ⟨fun _ h => decode_of_selects (i := .cls) (beq_iff_eq.mpr h), fun _ =>
    ⟨_, rfl, rfl, fun row col hr hc => (Display.pixel_eq _ hr hc).symm.trans (Display.pixel_blank row col)⟩⟩

/-! ## What a draw does to the picture -/

section
variable (s : State) (x y n : Nibble)

/-- The places under the sprite are those that the row walk of the draw covers. -/
theorem State.spriteCovers_iff (row col : Nat) : s.SpriteCovers x y n row col ↔
    Covers s.readByte s.i.toNat ((s.readV x).toNat % 64) ((s.readV y).toNat % 32) 0 n.toNat row col := by
  simp only [State.SpriteCovers, Covers, UnderBit, spriteBit, Config.memSize, Nat.add_zero, true_and]

/-- A pixel described as flipped exactly on A differs exactly on A. -/
theorem pixel_ne_iff_of_flip {p q : Bool} {A : Prop} (flip : q = true ↔ ¬ (p = true ↔ A)) : q ≠ p ↔ A := by
  rw [Ne, Bool.eq_iff_iff, flip]
  tauto

/-- The draw flips exactly the places under the sprite, raises the collision flag exactly when one of them was lit,
and leaves memory exactly when the last row's address does (R212, R213). -/
theorem State.drawSprite_spec :
    (∀ row col (hr : row < 32) (hc : col < 64),
      ((s.drawSprite x y n).disp[row][col] ≠ s.disp[row][col] ↔ s.SpriteCovers x y n row col)) ∧
    ((s.drawSprite x y n).collision = true ↔ ∃ (row col : Nat) (hr : row < 32) (hc : col < 64),
      s.SpriteCovers x y n row col ∧ s.disp[row][col] = true) ∧
    ((s.drawSprite x y n).outOfMemory = true ↔ 1 ≤ n.toNat ∧ 4096 ≤ s.i.toNat + (n.toNat - 1)) := by
  obtain ⟨flips, collides, leaves⟩ := drawRows_spec s.readByte s.i.toNat ((s.readV x).toNat % 64)
    ((s.readV y).toNat % 32) n.toNat 0 ⟨s.disp, false, false⟩
  simp only [← State.spriteCovers_iff] at flips collides
  refine ⟨fun row col hr hc => ?_, collides.trans ⟨?_, ?_⟩, leaves.trans ?_⟩
  · rw [← Display.pixel_eq _ hr hc, ← Display.pixel_eq _ hr hc]
    exact pixel_ne_iff_of_flip (flips row col hr hc)
  · rintro (h | ⟨row, col, hr, hc, covered, lit⟩)
    · cases h
    · exact ⟨row, col, hr, hc, covered, (Display.pixel_eq _ hr hc).symm.trans lit⟩
  · rintro ⟨row, col, hr, hc, covered, lit⟩
    exact .inr ⟨row, col, hr, hc, covered, (Display.pixel_eq _ hr hc).trans lit⟩
  · simp only [Config.memSize, Bool.false_eq_true, false_or]
    omega

end

/-! ## Dxyn -/

/-- What Dxyn leaves: the drawn picture, the collision flag in VF, and an event for a row outside memory (R212). -/
theorem exec_drw (x y n : Nibble) (s : State) : ∃ t, exec (.drw x y n) s = .next t ∧
    t = { s with disp := t.disp, draw := true, v := t.v, diag := t.diag } ∧
    t.disp = (s.drawSprite x y n).disp ∧
    (∀ j, t.readV j = if j = 0xF then if (s.drawSprite x y n).collision then 1 else 0 else s.readV j) ∧
    t.diag = if (s.drawSprite x y n).outOfMemory then s.diag ++ [.drawReadOob] else s.diag :=
  ⟨_, congrArg Host.Outcome.next (State.emitIf_eq _ _ _), rfl, rfl, fun j => State.readV_setV _ 0xF j _, rfl⟩

/-- Settles O36: the pre-increment does not touch what the draw reads. -/
theorem drawFlipsCoveredPixels : Obligations.DrawFlipsCoveredPixels := by
  refine ⟨decodesAs_withFields (.drw 0 0 0) (fun _ => rfl), fun x y n s => ?_⟩
  obtain ⟨t, ht, frame, picture, read, events⟩ := exec_drw x y n s.advance
  obtain ⟨flips, collides, leaves⟩ := s.advance.drawSprite_spec x y n
  have vf : t.readV 0xF = if (s.advance.drawSprite x y n).collision then 1 else 0 := (read 0xF).trans (if_pos rfl)
  refine ⟨t, ht, frame, ?_, fun j hj => (read j).trans (if_neg hj), ?_, ?_, ?_⟩
  · rw [picture]
    exact flips
  · rw [vf]
    exact (ite_eq_or_eq _ _ _).symm
  · rw [vf]
    exact Iff.trans (by simp) collides
  · exact events.trans (if_congr leaves rfl rfl)

/-! ## Drawing twice (R213) -/

/-- Of three pixels, the outer two are equal when the inner one differs from both or from neither. -/
theorem bool_eq_of_ne_iff_ne : ∀ {p q r : Bool}, (r ≠ q ↔ q ≠ p) → r = p := by decide

/-- The same sprite at the same origin covers the same places. -/
theorem State.spriteCovers_congr {s t : State} {x y : Nibble} (hx : t.readV x = s.readV x)
    (hy : t.readV y = s.readV y) (hi : t.i = s.i) (hm : ∀ a, t.readByte a = s.readByte a) (n : Nibble)
    (row col : Nat) : t.SpriteCovers x y n row col ↔ s.SpriteCovers x y n row col := by
  simp only [State.SpriteCovers, hx, hy, hi, hm]

/-- Settles O37: the first draw leaves the origin, I and memory alone, so that both flip the same places. -/
theorem drawingTwiceRestores : Obligations.DrawingTwiceRestores := by
  intro x y n s t hx hy ht
  obtain ⟨t', ht', frame, flips, kept, -⟩ := drawFlipsCoveredPixels.2 x y n s
  obtain rfl : t' = t := Host.Outcome.next.inj (ht'.symm.trans ht)
  obtain ⟨u, hu, -, flipsBack, -, -, collides, -⟩ := drawFlipsCoveredPixels.2 x y n t'
  have same : ∀ row col, t'.SpriteCovers x y n row col ↔ s.SpriteCovers x y n row col :=
    State.spriteCovers_congr (kept x hx) (kept y hy) (by rw [frame]; rfl) (fun a => by rw [frame]; rfl) n
  refine ⟨u, hu, Display.ext_pixel fun row col hr hc => ?_, collides.trans ?_⟩
  · rw [Display.pixel_eq _ hr hc, Display.pixel_eq _ hr hc]
    exact bool_eq_of_ne_iff_ne
      ((flipsBack row col hr hc).trans ((same row col).trans (flips row col hr hc).symm))
  · refine exists₄_congr fun row col hr hc => ?_
    rw [same, ← flips row col hr hc, and_comm]
    refine and_congr_right fun lit => ?_
    rw [lit, ne_comm, ← Bool.eq_false_iff]

end Sys2Proof.Machine
end

section
/-! SUPPORT. The timer instructions (R230 to R232). -/

namespace Sys2Proof.Machine

/-- An instruction sees the registers as they are at the slot's beginning: the pre-increment writes none (R120). -/
theorem State.readV_advance (s : State) (x : Nibble) : s.advance.readV x = s.readV x :=
  State.readV_congr rfl x

/-- Settles O25: Fx07 writes one register, VF like any other; Fx15 and Fx18 set one timer to Vx. -/
theorem timerInstructionsMoveBytes : Obligations.TimerInstructionsMoveBytes := by
  refine ⟨decodesAs_withFields (.ldVxDt 0) (fun _ => rfl), decodesAs_withFields (.ldDtVx 0) (fun _ => rfl),
    decodesAs_withFields (.ldStVx 0) (fun _ => rfl), fun x s => ⟨exec_of_setV rfl, ?_, ?_⟩⟩
  · rw [← s.readV_advance x]
    rfl
  · rw [← s.readV_advance x]
    rfl

end Sys2Proof.Machine
end

section
/-! SUPPORT. The index register and the memory transfers (R240 to R249). -/

namespace Sys2Proof.Machine

/-! ## The index register -/

theorem readVWide_toNat (s : State) (x : Nibble) : (s.readVWide x).toNat = (s.readV x).toNat :=
  BitVec.toNat_setWidth_of_le (by decide)

/-- Five times a byte does not reach 2^16 (R245). -/
theorem glyphAddr_readVWide_toNat (s : State) (x : Nibble) :
    (glyphAddr (s.readVWide x)).toNat = 5 * (s.readV x).toNat := by
  have := (s.readV x).isLt
  rw [glyphAddr, BitVec.toNat_mul, readVWide_toNat, Nat.mul_comm]
  exact Nat.mod_eq_of_lt (show 5 * _ < 65536 by omega)

/-- Settles O26: the sum of two words as a word is the sum modulo 2^16, and the product is below it. -/
theorem indexArithmetic : Obligations.IndexArithmetic := by
  refine ⟨decodesAs_withFields (.addIVx 0) (fun _ => rfl), decodesAs_withFields (.ldFVx 0) (fun _ => rfl),
    fun x s => ⟨⟨_, rfl, rfl, ?_⟩, _, rfl, rfl, glyphAddr_readVWide_toNat s.advance x⟩⟩
  rw [State.setI_i, BitVec.toNat_add, readVWide_toNat, State.readV_advance]
  rfl

/-- Settles O27: the operand is nnn, widened. -/
theorem loadIndexIsZeroExtended : Obligations.LoadIndexIsZeroExtended :=
  ⟨decodesAs_withFields (.ldI 0) (fun _ => rfl), fun nnn _ => ⟨_, rfl, rfl, addrOperand_toNat nnn⟩⟩

/-- A byte of the font's place reads as the FONT has it while memory does not list it (R342). -/
theorem State.readByte_of_unlisted {s : State} {a : Nat} (ha : a < 80) (h : Memory.lookup s.mem a = none) :
    some (s.readByte a) = s.params.font[a]? := by
  rw [State.readByte, Memory.read, h, Memory.bootByte, Vector.getElem?_eq_getElem ha]
  rfl

/-- Settles O28: I is five times the digit, and the glyph there lies in the font's 80 bytes. -/
theorem glyphIsAtFiveTimesDigit : Obligations.GlyphIsAtFiveTimesDigit := by
  intro x s digit unlisted
  obtain ⟨-, t, ht, frame, address⟩ := indexArithmetic.2.2 x s
  refine ⟨t, ht, fun k hk => ?_⟩
  have inFont : 5 * (s.readV x).toNat + k < 80 := by omega
  rw [address, ← State.readByte_of_unlisted inFont (unlisted _ inFont), frame]
  rfl

/-! ## Fx33 -/

/-- Settles O29: where the last digit fits, all three are written, at three different addresses. -/
theorem decimalDigitsAreStored : Obligations.DecimalDigitsAreStored := by
  refine ⟨decodesAs_withFields (.ldBVx 0) (fun _ => rfl), fun x s => ⟨fun room => ?_, fun full => ?_⟩⟩
  · have read := s.advance.writeDigits_readByte s.i.toNat (s.readV x)
    refine ⟨s.advance.writeDigits s.i.toNat (s.readV x), if_pos room, rfl, ?_, ?_, ?_, fun a ha => ?_⟩
    · rw [read, if_pos rfl, hundreds_toNat]
    · rw [read, if_neg (by omega), if_pos rfl, tens_toNat]
    · rw [read, if_neg (by omega), if_neg (by omega), if_pos rfl, units_toNat]
    · rw [read, if_neg (by omega), if_neg (by omega), if_neg (by omega)]
      rfl
  · exact if_neg (Nat.not_lt.mpr full)

/-! ## Fx55 and Fx65 -/

/-- Settles O30, from what the store loop writes and when it reports. -/
theorem storeRegistersUpToBound : Obligations.StoreRegistersUpToBound := by
  refine ⟨decodesAs_withFields (.ldMemVx 0) (fun _ => rfl), fun x s => ?_⟩
  have size : Config.memSize = 4096 := rfl
  have sameI : s.advance.i.toNat = s.i.toNat := rfl
  refine ⟨_, rfl, State.storeRegs_shape _ _ s.advance, fun j hj inMem => ?_, fun a ha => ?_, ?_⟩
  · rw [State.storeRegs_readByte, if_pos (by omega), sameI, Nat.add_sub_cancel_left, BitVec.ofNat_toNat,
      BitVec.setWidth_eq, State.readV_advance]
  · exact (State.storeRegs_readByte _ _ _ a).trans (if_neg (by omega))
  · exact (State.storeRegs_diag _ _ _).trans (if_congr (by omega) rfl rfl)

/-- Settles O31, from what the load loop writes and when it reports. -/
theorem loadRegistersUpToBound : Obligations.LoadRegistersUpToBound := by
  refine ⟨decodesAs_withFields (.ldVxMem 0) (fun _ => rfl), fun x s => ?_⟩
  have size : Config.memSize = 4096 := rfl
  have sameI : s.advance.i.toNat = s.i.toNat := rfl
  refine ⟨_, rfl, State.loadRegs_shape _ _ s.advance, fun j => ?_, ?_⟩
  · exact (State.loadRegs_readV _ _ _ (by omega) j).trans (if_congr (by omega) rfl rfl)
  · exact (State.loadRegs_diag _ _ _).trans (if_congr (by omega) rfl rfl)

/-- Settles O32: a register that is loaded was stored at the same address, and the others were not touched. -/
theorem storeThenLoadRoundTrips : Obligations.StoreThenLoadRoundTrips := by
  intro x s t ht
  obtain ⟨t', ht', stores, stored, -, -⟩ := storeRegistersUpToBound.2 x s
  obtain rfl : t' = t := Host.Outcome.next.inj (ht'.symm.trans ht)
  obtain ⟨u, hu, loads, loaded, -⟩ := loadRegistersUpToBound.2 x t'
  have sameV : t'.v = s.v := (congrArg State.v stores :)
  have sameI : t'.i = s.i := (congrArg State.i stores :)
  have nextWord : t'.pc = s.pc + 2 := (congrArg State.pc stores :)
  refine ⟨u, hu, State.v_ext fun j => ?_, (congrArg State.i loads :).trans sameI, (congrArg State.mem loads :), ?_⟩
  · rw [loaded, sameI]
    split
    case isTrue reached => exact stored j reached.1 reached.2
    case isFalse => exact State.readV_congr sameV j
  · calc u.pc = t'.pc + 2 := (congrArg State.pc loads :)
      _ = s.pc + 2 + 2 := by rw [nextWord]
      _ = s.pc + 4 := BitVec.add_assoc s.pc 2 2

end Sys2Proof.Machine
end

section
/-! SUPPORT. The keypad: the key skips, and the key wait of Fx0A with its latch (R260 to R265). -/

namespace Sys2Proof.Machine

/-! ## What Fx0A does, by its latch and the keys -/

/-- The key that no pressed key precedes is the one found (R263). -/
theorem lowestPressed_eq_some {key : Vector Bool 16} {k : Nat} (hk : k < 16) (pressed : key[k] = true)
    (lowest : ∀ (j : Nat) (hj : j < k), key[j] = false) : lowestPressed key = some k := by
  cases found : lowestPressed key with
  | none => simp [lowestPressed_none.1 found k hk] at pressed
  | some r =>
    obtain ⟨hr, rPressed, rLowest⟩ := lowestPressed_some found
    obtain before | rfl | after := Nat.lt_trichotomy r k
    · simp [lowest r before] at rPressed
    · rfl
    · simp [rLowest k after] at pressed

theorem exec_ldVxK_of_ne_awaitRelease {s : State} (x : Nibble) (h : s.kw ≠ .awaitRelease) :
    exec (.ldVxK x) s = .next (s.pollPress x) := by
  simp only [exec, execLdVxK]
  cases hk : s.kw with
  | idle => rfl
  | awaitPress => rfl
  | awaitRelease => exact absurd hk h

theorem exec_ldVxK_of_awaitRelease {s : State} (x : Nibble) (h : s.kw = .awaitRelease) :
    exec (.ldVxK x) s = .next s.pollRelease := by
  simp only [exec, execLdVxK, h]

/-- The rewind undoes the pre-increment, whatever else the instruction wrote (R120, R263). -/
theorem State.rewind_of_pc {s t : State} (h : t.pc = s.pc + 2) : t.rewind = t.setPc s.pc := by
  rw [State.rewind_eq, h, word_add_two_sub_two]

section
variable (s : State) (x : Nibble)

theorem State.pollPress_advance_of_pressed {k : Nat} (h : lowestPressed s.key = some k) :
    s.advance.pollPress x = (s.setV x (BitVec.ofNat 8 k)).setKw .awaitRelease := by
  have pressed : lowestPressed s.advance.key = some k := h
  rw [State.pollPress, pressed]
  exact State.rewind_of_pc (s := s) rfl

theorem State.pollPress_advance_of_released (h : lowestPressed s.key = none) :
    s.advance.pollPress x = s.setKw .awaitPress := by
  have released : lowestPressed s.advance.key = none := h
  rw [State.pollPress, released]
  exact State.rewind_of_pc (s := s) rfl

theorem State.pollRelease_advance_of_pressed {k : Nat} (h : lowestPressed s.key = some k) :
    s.advance.pollRelease = s := by
  have pressed : lowestPressed s.advance.key = some k := h
  rw [State.pollRelease, pressed]
  exact State.rewind_of_pc (s := s) rfl

theorem State.pollRelease_advance_of_released (h : lowestPressed s.key = none) :
    s.advance.pollRelease = s.advance.setKw .idle := by
  have released : lowestPressed s.advance.key = none := h
  rw [State.pollRelease, released]

end

/-! ## The latch and the instruction at PC -/

/-- While the wait goes on, Fx0A has put PC back at its own address (R263, R265). -/
theorem exec_ldVxK_kw_or_pc {x : Nibble} {s t : State} (h : exec (.ldVxK x) s.advance = .next t) :
    t.kw = .idle ∨ t.pc = s.pc := by
  obtain ⟨-, rfl⟩ | ⟨-, rfl⟩ := execLdVxK_next h
  · cases found : lowestPressed s.key with
    | none => rw [s.pollPress_advance_of_released x found]; exact .inr rfl
    | some k => rw [s.pollPress_advance_of_pressed x found]; exact .inr rfl
  · cases found : lowestPressed s.key with
    | none => rw [s.pollRelease_advance_of_released found]; exact .inl rfl
    | some k => rw [s.pollRelease_advance_of_pressed found]; exact .inr rfl

theorem keyWaitAtPc_congr {s t : State} (hkw : t.kw = s.kw) (hpc : t.pc = s.pc) (hm : t.mem = s.mem)
    (hp : t.params = s.params) : t.KeyWaitAtPc ↔ s.KeyWaitAtPc := by
  simp only [State.KeyWaitAtPc, hkw, State.fetch_congr hpc hm hp]

/-- An Fx0A that still waits is fetched again; no other instruction runs while the latch is set, and none sets it. -/
theorem exec_keyWaitAtPc {ins : Instr} {s t : State} (hs : s.KeyWaitAtPc) (hf : s.fetch = .instr ins)
    (h : exec ins s.advance = .next t) : t.KeyWaitAtPc := by
  intro waiting
  by_cases polls : ∃ x, ins = .ldVxK x
  · obtain ⟨x, rfl⟩ := polls
    have samePc : t.pc = s.pc := (exec_ldVxK_kw_or_pc h).resolve_left waiting
    have sameMem : t.mem = s.mem := exec_mem (s := s.advance) h (by simp [Stores])
    exact ⟨x, (State.fetch_congr samePc sameMem (exec_params_hostIn_frameNo h).1).trans hf⟩
  · have sameKw : t.kw = s.kw := (exec_footprint h).kw polls
    obtain ⟨x, hx⟩ := hs (sameKw ▸ waiting)
    exact absurd ⟨x, Fetched.instr.inj (hf.symm.trans hx)⟩ polls

/-- Settles O56: a frame's ends and a fault leave PC and the latch alone, and with the latch set the slot's word is an
Fx0A. -/
theorem stepKeepsKeyWaitAtPc : Obligations.StepKeepsKeyWaitAtPc := by
  intro s t hs h
  cases stepsTo_of_step h with
  | startFrame => exact (keyWaitAtPc_congr (by simp) (by simp) (by simp) (by simp)).2 hs
  | endFrame => exact (keyWaitAtPc_congr rfl rfl rfl rfl).2 hs
  | fetchFault => exact (keyWaitAtPc_congr rfl rfl rfl rfl).2 hs
  | unmapped _ _ hf =>
    intro waiting
    obtain ⟨x, hx⟩ := hs waiting
    rw [hf] at hx
    cases hx
  | instr left _ _ _ hf hx =>
    have slotHs : (s.takeSlot left).KeyWaitAtPc := (keyWaitAtPc_congr rfl rfl rfl rfl).2 hs
    exact exec_keyWaitAtPc slotHs ((s.fetch_takeSlot left).trans hf) hx

/-! ## The press and the release -/

/-- Fx0A that sees no key pressed before a press polls again (R263). -/
theorem exec_ldVxK_of_released {s : State} (x : Nibble) (polling : s.kw ≠ .awaitRelease)
    (released : ∀ k (h : k < 16), s.key[k] = false) :
    exec (.ldVxK x) s.advance = .next { s with kw := .awaitPress } := by
  rw [exec_ldVxK_of_ne_awaitRelease (s := s.advance) x polling,
    s.pollPress_advance_of_released x (lowestPressed_none.2 released)]
  rfl

/-- Settles O38: the lowest pressed key is the one found, and its number fits a byte. -/
theorem keyWaitSeesPress : Obligations.KeyWaitSeesPress := by
  refine ⟨decodesAs_withFields (.ldVxK 0) (fun _ => rfl), fun x s polling => ⟨fun k hk pressed lowest => ?_,
    exec_ldVxK_of_released x polling⟩⟩
  have found := lowestPressed_eq_some hk pressed lowest
  have byte : (BitVec.ofNat 8 k).toNat = k := by rw [BitVec.toNat_ofNat, Nat.mod_eq_of_lt (by omega)]
  refine ⟨(s.setV x (BitVec.ofNat 8 k)).setKw .awaitRelease, ?_, rfl, fun j => ?_⟩
  · rw [exec_ldVxK_of_ne_awaitRelease (s := s.advance) x polling, s.pollPress_advance_of_pressed x found]
  · rw [State.readV_congr (State.setKw_v _ _), State.readV_setV, apply_ite BitVec.toNat, byte]

/-- Settles O39: the wait is over exactly when no pressed key is found. -/
theorem keyWaitSeesRelease : Obligations.KeyWaitSeesRelease := by
  intro x s waiting
  rw [exec_ldVxK_of_awaitRelease (s := s.advance) x waiting]
  constructor
  · intro released
    rw [s.pollRelease_advance_of_released (lowestPressed_none.2 released)]
    rfl
  · rintro ⟨k, hk, pressed⟩
    cases found : lowestPressed s.key with
    | none => simp [lowestPressed_none.1 found k hk] at pressed
    | some r => rw [s.pollRelease_advance_of_pressed found]

/-! ## The wait over a whole budget -/

/-- A slot of a budget that does not stop the machine hands its state to the slots that are left (R283). -/
theorem runSlots_of_slot {s t : State} {count : Nat} (h : slot (s.takeSlot count) = .next t)
    (alive : t.run ≠ .stopped) : runSlots (count + 1) s = runSlots count t := by
  rw [runSlots, h]
  exact if_neg alive

theorem runSlots_of_waiting {x : Nibble} {s : State} (count : Nat) (running : s.run = .running)
    (hf : s.fetch = .instr (.ldVxK x)) (polling : s.kw ≠ .awaitRelease)
    (released : ∀ k (h : k < 16), s.key[k] = false) :
    runSlots (count + 1) s = runSlots count { s.takeSlot count with kw := .awaitPress } := by
  refine runSlots_of_slot ?_ (by simp [running])
  rw [slot, State.fetch_takeSlot, hf]
  exact exec_ldVxK_of_released (s := s.takeSlot count) x polling released

/-- Settles O40, by induction on the slots that are left: the state after one is a state of the same kind. -/
theorem keyWaitBlocksWholeBudget : Obligations.KeyWaitBlocksWholeBudget := by
  intro x s count running hf polling released
  induction count generalizing s with
  | zero =>
    rw [runSlots_of_waiting 0 running hf polling released]
    rfl
  | succ count ih =>
    rw [runSlots_of_waiting (count + 1) running hf polling released]
    exact ih _ running ((State.fetch_congr rfl rfl rfl).trans hf) nofun released

/-! ## The key skips -/

/-- Where the policy raises no fault, the key is the low nibble (R260). -/
theorem keyIndex_eq_some {policy : KeyIndexPolicy} {v : Byte} (h : policy = .lowNibble ∨ v.toNat ≤ 0xF) :
    keyIndex policy v = some (v.extractLsb' 0 4) := by
  cases policy with
  | lowNibble => rfl
  | fault => exact if_neg (Nat.not_lt.2 (h.resolve_left nofun))

/-- Both key skips, on the key that Vx names (R261, R262). -/
theorem exec_keySkips {s : State} {x k : Nibble} (h : keyIndex s.params.keyIndex (s.readV x) = some k) :
    exec (.skp x) s = .next (s.skipIf (s.keyDown k)) ∧ exec (.sknp x) s = .next (s.skipIf (!s.keyDown k)) := by
  simp only [exec, execSkp, execSknp, h, and_self]

theorem State.skipIf_advance_not (s : State) (b : Bool) :
    s.advance.skipIf (!b) = { s with pc := if b then s.pc + 2 else s.pc + 4 } := by
  rw [State.skipIf_advance]
  cases b <;> rfl

/-- Settles O16: the low nibble is the register modulo 16. -/
theorem keySkips : Obligations.KeySkips := by
  refine ⟨decodesAs_withFields (.skp 0) (fun _ => rfl), decodesAs_withFields (.sknp 0) (fun _ => rfl),
    fun x s noFault => ?_⟩
  obtain ⟨skp, sknp⟩ := exec_keySkips (s := s.advance) (keyIndex_eq_some noFault)
  refine ⟨((s.readV x).extractLsb' 0 4).toNat, BitVec.isLt _, by simp, skp.trans ?_, sknp.trans ?_⟩
  · exact congrArg _ (s.skipIf_advance (s.keyDown _))
  · exact congrArg _ (s.skipIf_advance_not (s.keyDown _))

end Sys2Proof.Machine
end

section
/-! SUPPORT. The frame scheduler (R280 to R291): a frame's start by the host's input, the timers and the signals at its
end, RUN, and the steps of a frame against the frame step in one piece. -/

namespace Sys2Proof.Machine

/-! ## A frame's start, by the host's input -/

theorem keyLevels_getElem (keysIn : BitVec 16) (k : Nat) (h : k < 16) :
    (keyLevels keysIn)[k] = keysIn.getLsbD k := by
  rw [keyLevels, Vector.getElem_ofFn]

theorem running_or_paused {r : RunState} (alive : r ≠ .stopped) : r = .running ∨ r = .paused := by
  cases r with
  | running => exact .inl rfl
  | paused => exact .inr rfl
  | stopped => exact absurd rfl alive

/-- A machine that is not STOPPED is PAUSED after the toggle exactly if it ran and toggles, or does neither (R281). -/
theorem toggled_eq_paused_iff {r : RunState} (alive : r ≠ .stopped) (toggle : Bool) :
    (if toggle then togglePause r else r) = .paused ↔ (r = .running ↔ toggle = true) := by
  obtain rfl | rfl := running_or_paused alive <;> cases toggle <;> decide

section
variable {s : State} (alive : s.run ≠ .stopped)
include alive

/-- Exit wins over the other inputs (R281, decision D20). -/
theorem State.startFrame_of_exit (exits : s.nextHostInput.exitReq = true) :
    s.startFrame = { s.afterHostInput with drawReq := false, diag := [], run := .stopped, soundOn := false } := by
  rw [State.startFrame, State.beginFrame, State.afterHostInput_run, if_neg alive, if_pos exits]

variable (stays : s.nextHostInput.exitReq = false)
include stays

/-- A frame that is or becomes PAUSED samples the keypad and drives the sound (R282, R288). -/
theorem State.startFrame_of_paused (paused : s.run = .running ↔ s.nextHostInput.pauseToggle = true) :
    s.startFrame = { s.afterHostInput with drawReq := false, diag := [], run := .paused,
                                           key := keyLevels s.nextHostInput.keysIn, soundOn := s.st != 0 } := by
  rw [State.startFrame, State.beginFrame, State.afterHostInput_run, if_neg alive, if_neg (by simp [stays])]
  exact if_pos ((toggled_eq_paused_iff alive _).2 paused)

/-- A frame that is or becomes RUNNING samples the keypad and has its whole budget (R282, R283). -/
theorem State.startFrame_of_running (running : ¬ (s.run = .running ↔ s.nextHostInput.pauseToggle = true)) :
    s.startFrame = { s.afterHostInput with drawReq := false, diag := [], run := .running,
                                           key := keyLevels s.nextHostInput.keysIn,
                                           phase := .slots s.params.ipf } := by
  rw [State.startFrame, State.beginFrame, State.afterHostInput_run, if_neg alive, if_neg (by simp [stays])]
  exact if_neg (fun paused => running ((toggled_eq_paused_iff alive _).1 paused))

end

/-- RUN and the keypad at a frame's start, by what the host asks for (R281, R282, R289). -/
theorem State.startFrame_edges (s : State) :
    (s.startFrame.run = .stopped ∧ (s.run ≠ .stopped → s.nextHostInput.exitReq = true)) ∨
    (s.run ≠ .stopped ∧ s.startFrame.key = keyLevels s.nextHostInput.keysIn ∧
      ((s.startFrame.run = .paused ∧ (s.run = .running ↔ s.nextHostInput.pauseToggle = true)) ∨
       (s.startFrame.run = .running ∧ ¬ (s.run = .running ↔ s.nextHostInput.pauseToggle = true)))) := by
  by_cases stopped : s.run = .stopped
  · exact .inl ⟨by rw [startFrame_of_stopped stopped]; exact stopped, fun alive => absurd stopped alive⟩
  cases exits : s.nextHostInput.exitReq with
  | true => exact .inl ⟨by rw [startFrame_of_exit stopped exits], fun _ => rfl⟩
  | false =>
    by_cases paused : s.run = .running ↔ s.nextHostInput.pauseToggle = true
    · rw [startFrame_of_paused stopped exits paused]
      exact .inr ⟨stopped, rfl, .inl ⟨rfl, paused⟩⟩
    · rw [startFrame_of_running stopped exits paused]
      exact .inr ⟨stopped, rfl, .inr ⟨rfl, paused⟩⟩

/-- `draw_req` is driven 0 when a frame begins, whatever the host asks for (R280). -/
@[simp] theorem State.startFrame_drawReq (s : State) : s.startFrame.drawReq = false := by
  rw [State.startFrame, State.beginFrame]
  split_ifs <;> rfl

/-- Settles O42, by the equation of a frame's start for each of the three inputs. -/
theorem frameStartFollowsHostEdges : Obligations.FrameStartFollowsHostEdges := by
  intro s hp alive
  refine ⟨_, step_between hp, fun exits => ?_, fun stays paused => ?_, fun stays running => ?_⟩
  · rw [State.startFrame_of_exit alive exits]
    rfl
  · have sound : (s.st != 0) = decide (s.st ≠ 0) := by rw [bne, beq_eq_decide, decide_not]
    rw [State.startFrame_of_paused alive stays paused, sound]
    rfl
  · rw [State.startFrame_of_running alive stays running]
    rfl

/-- Settles O43, by induction on the frames: a stopped machine's frame leaves it stopped between two frames. -/
theorem stoppedIsTerminal : Obligations.StoppedIsTerminal := by
  intro n s stopped hp
  induction n generalizing s with
  | zero => exact ⟨_, core_run_next 0 (step_between hp), by rw [State.startFrame_of_stopped stopped]; rfl⟩
  | succ n ih =>
    have frame := State.startFrame_of_stopped stopped
    have stillStopped : s.startFrame.run = .stopped := by rw [frame]; exact stopped
    have stillBetween : s.startFrame.phase = .between := by rw [frame]; exact hp
    obtain ⟨t, steps, shape⟩ := ih s.startFrame stillStopped stillBetween
    refine ⟨t, (core_run_next (n + 1) (step_between hp)).trans steps, shape.trans ?_⟩
    rw [frame]
    rfl

/-! ## What a slot does to the scheduler -/

/-- A slot completes, leaving everything outside the instruction alone, or takes a fault at the address it began at
(R120, R311). -/
theorem slot_outcome (s : State) :
    ∃ t, slot s = .next t ∧ (SameOutside s t ∨ ∃ c, t = s.raiseFaultAt c s.pc) := by
  obtain ⟨-, hs⟩ | ⟨-, hs⟩ | ⟨i, -, hs⟩ := slot_cases s
  · exact ⟨_, hs, .inr ⟨.fetchOutOfRange, rfl⟩⟩
  · exact ⟨_, hs, .inl ⟨rfl, rfl, rfl, rfl, rfl, rfl, rfl, rfl, rfl⟩⟩
  · obtain ⟨t, hx, same⟩ | ⟨c, hx, -⟩ := exec_cases i s.advance
    · exact ⟨t, hs.trans hx, .inl ⟨same.run, same.fault, same.phase, same.key, same.drawReq, same.soundOn,
        same.hostIn, same.frameNo, same.params⟩⟩
    · have address : s.advance.pc - 2 = s.pc := by simp [State.advance_eq]
      refine ⟨_, hs.trans hx, .inr ⟨c, ?_⟩⟩
      rw [State.raiseFault_eq, address]
      rfl

theorem step_slot_cases {s t : State} {left : Nat} (hp : s.phase = .slots (left + 1)) (h : step s = .next t) :
    SameOutside (s.takeSlot left) t ∨ ∃ c, t = (s.takeSlot left).raiseFaultAt c s.pc := by
  obtain ⟨t', hs, outcome⟩ := slot_outcome (s.takeSlot left)
  rw [step_slot hp, hs] at h
  cases h
  exact outcome

/-- Settles O41: no slot and no frame's end touches the keypad. -/
theorem keypadIsSampledAtFrameStart : Obligations.KeypadIsSampledAtFrameStart := by
  intro s t h
  match hp : s.phase with
  | .between =>
    rw [step_between hp] at h
    cases h
    refine ⟨fun _ alive k hk => ?_, fun hb => absurd rfl hb⟩
    obtain ⟨stopped, -⟩ | ⟨-, key, -⟩ := s.startFrame_edges
    · exact absurd stopped alive
    · simp only [key, keyLevels_getElem]
  | .slots 0 =>
    rw [step_end hp] at h
    cases h
    exact ⟨nofun, fun _ => rfl⟩
  | .slots (left + 1) =>
    refine ⟨nofun, fun _ => ?_⟩
    obtain same | ⟨c, rfl⟩ := step_slot_cases hp h
    · exact same.key
    · rfl

/-- Settles O44: a frame's end keeps RUN, and a slot keeps it unless it takes a fault. -/
theorem runTransitionsAreComplete : Obligations.RunTransitionsAreComplete := by
  intro s t h changed
  match hp : s.phase with
  | .between =>
    rw [step_between hp] at h
    cases h
    obtain ⟨stopped, exits⟩ | ⟨alive, -, ⟨paused, edge⟩ | ⟨running, edge⟩⟩ := s.startFrame_edges
    · have alive : s.run ≠ .stopped := fun hr => changed (stopped.trans hr.symm)
      exact .inr (.inr (.inl ⟨rfl, alive, stopped, exits alive⟩))
    · have running := (running_or_paused alive).resolve_right fun hr => changed (paused.trans hr.symm)
      exact .inl ⟨rfl, running, paused, edge.1 running⟩
    · have paused := (running_or_paused alive).resolve_left fun hr => changed (running.trans hr.symm)
      exact .inr (.inl ⟨rfl, paused, running, by simpa [paused] using edge⟩)
  | .slots 0 =>
    rw [step_end hp] at h
    cases h
    exact absurd rfl changed
  | .slots (left + 1) =>
    obtain same | ⟨c, rfl⟩ := step_slot_cases hp h
    · exact absurd same.run changed
    · exact .inr (.inr (.inr ⟨⟨left, rfl⟩, rfl, _, rfl, rfl⟩))

/-! ## The timers and the signals -/

theorem decay_toNat (t : Byte) : (decay t).toNat = t.toNat - 1 := by
  unfold decay
  split
  case isTrue zero => simp [zero]
  case isFalse nonzero => bv_omega

/-- The timers are as they were (R233). -/
def SameTimers (s t : State) : Prop := t.dt = s.dt ∧ t.st = s.st

/-- The instructions that set a timer: Fx15 and Fx18 (R233). -/
def SetsTimer (i : Instr) : Prop := (∃ x, i = .ldDtVx x) ∨ ∃ x, i = .ldStVx x

theorem sameTimers_skipIf (s : State) (b : Bool) : SameTimers s (s.skipIf b) := by
  rw [State.skipIf_eq]
  exact ⟨rfl, rfl⟩

theorem sameTimers_pollPress (s : State) (x : Nibble) : SameTimers s (s.pollPress x) := by
  unfold State.pollPress
  split <;> exact ⟨rfl, rfl⟩

theorem sameTimers_pollRelease (s : State) : SameTimers s s.pollRelease := by
  unfold State.pollRelease
  split <;> exact ⟨rfl, rfl⟩

/-- An instruction other than Fx15 and Fx18 leaves both timers alone (R233). -/
theorem exec_sameTimers {ins : Instr} {s t : State} (h : exec ins s = .next t) (hn : ¬ SetsTimer ins) :
    SameTimers s t := by
  cases ins
  case ldDtVx x => exact absurd (.inl ⟨x, rfl⟩) hn
  case ldStVx x => exact absurd (.inr ⟨x, rfl⟩) hn
  case ret => obtain ⟨live, rfl⟩ | ⟨-, rfl⟩ := execRet_next h <;> exact ⟨rfl, rfl⟩
  case call nnn => obtain ⟨room, rfl⟩ | ⟨-, rfl⟩ := execCall_next h <;> exact ⟨rfl, rfl⟩
  case skp x | sknp x =>
    obtain ⟨taken, rfl⟩ | ⟨-, rfl⟩ := execKeySkip_next (x := x) (by simp) h
    · exact sameTimers_skipIf s taken
    · exact ⟨rfl, rfl⟩
  case ldVxK x =>
    obtain ⟨-, rfl⟩ | ⟨-, rfl⟩ := execLdVxK_next h
    · exact sameTimers_pollPress s x
    · exact sameTimers_pollRelease s
  case ldBVx x => obtain ⟨-, rfl⟩ | ⟨-, rfl⟩ := execLdBVx_next h <;> exact ⟨rfl, rfl⟩
  all_goals cases h
  case seImm | sneImm | seReg | sneReg => exact sameTimers_skipIf s _
  case drw => rw [State.emitIf_eq]; exact ⟨rfl, rfl⟩
  case ldMemVx => rw [State.storeRegs_shape]; exact ⟨rfl, rfl⟩
  case ldVxMem => rw [State.loadRegs_shape]; exact ⟨rfl, rfl⟩
  all_goals exact ⟨rfl, rfl⟩

/-- A timer that an instruction changed was set to Vx, DT by Fx15 and ST by Fx18 (R231 to R233). -/
theorem exec_timer_changed {ins : Instr} {s t : State} (h : exec ins s = .next t) :
    (t.dt ≠ s.dt → ∃ x, ins = .ldDtVx x ∧ t.dt = s.readV x) ∧
    (t.st ≠ s.st → ∃ x, ins = .ldStVx x ∧ t.st = s.readV x) := by
  by_cases sets : SetsTimer ins
  · obtain ⟨x, rfl⟩ | ⟨x, rfl⟩ := sets <;> cases h
    · exact ⟨fun _ => ⟨x, rfl, rfl⟩, (absurd rfl ·)⟩
    · exact ⟨(absurd rfl ·), fun _ => ⟨x, rfl, rfl⟩⟩
  · obtain ⟨dt, st⟩ := exec_sameTimers h sets
    exact ⟨(absurd dt ·), (absurd st ·)⟩

/-- Settles O45: a frame's end decrements, its start keeps the timers, and of the slots only Fx15 and Fx18 set one. -/
theorem timersDecayOncePerFrame : Obligations.TimersDecayOncePerFrame := by
  refine ⟨fun s hp => ⟨_, step_end hp, rfl, decay_toNat _, decay_toNat _⟩, fun s t hp h => ?_,
    fun s t left hp h => ?_⟩
  · rw [step_between hp] at h
    cases h
    exact ⟨s.startFrame_dt, s.startFrame_st⟩
  · rw [step_slot hp] at h
    obtain ⟨-, hs⟩ | ⟨-, hs⟩ | ⟨i, hf, hs⟩ := slot_cases (s.takeSlot left) <;> rw [hs] at h
    · cases h
      exact ⟨(absurd rfl ·), (absurd rfl ·)⟩
    · cases h
      exact ⟨(absurd rfl ·), (absurd rfl ·)⟩
    · obtain ⟨dt, st⟩ := exec_timer_changed h
      rw [State.fetch_takeSlot] at hf
      simp only [hf, Fetched.instr.injEq]
      exact ⟨dt, st⟩

/-- Settles O46: ST is nonzero after the decrement exactly if it was above 1, and a paused frame was not STOPPED, so
that nothing waits to be drawn. -/
theorem frameEndDrivesSignals : Obligations.FrameEndDrivesSignals := by
  refine ⟨fun s hp => ⟨_, step_end hp, rfl, ?_, rfl⟩, fun s t hs hp h paused => ?_⟩
  · have decayed := decay_toNat s.st
    change (decay s.st != 0) = true ↔ 1 < s.st.toNat
    rw [bne_iff_ne]
    bv_omega
  · rw [step_between hp] at h
    cases h
    obtain ⟨-, -, undrawn⟩ := hs
    obtain ⟨stopped, -⟩ | ⟨alive, -⟩ := s.startFrame_edges
    · simp [paused] at stopped
    · exact ⟨s.startFrame_draw.trans (undrawn hp alive), s.startFrame_drawReq, s.startFrame_disp⟩

/-! ## The steps of a frame carry out the frame step -/

/-- A slot that stopped the machine ends the frame at once (R284). -/
theorem runSlots_of_stopped {s t : State} {count : Nat} (h : slot (s.takeSlot count) = .next t)
    (stopped : t.run = .stopped) : runSlots (count + 1) s = .next t := by
  rw [runSlots, h]
  exact if_pos stopped

/-- From the middle of a budget, one step for each slot that is left and one for the frame's end reach what `runSlots`
reaches, or fewer where a slot takes a fault (R283, R284). -/
theorem core_run_eq_runSlots {s : State} {left : Nat} (hp : s.phase = .slots left) (running : s.run = .running) :
    ∃ n t, n ≤ left ∧ Sys2Proof.core.run (n + 1) s = .next t ∧ runSlots left s = .next t ∧
      t.phase = .between := by
  induction left generalizing s with
  | zero => exact ⟨0, _, Nat.le_refl 0, core_run_next 0 (step_end hp), rfl, rfl⟩
  | succ left ih =>
    obtain ⟨t, hs, same | ⟨c, rfl⟩⟩ := slot_outcome (s.takeSlot left)
    · have alive : t.run = .running := same.run.trans running
      obtain ⟨n, u, bound, steps, frame, hb⟩ := ih same.phase alive
      refine ⟨n + 1, u, Nat.succ_le_succ bound, ?_, ?_, hb⟩
      · rw [core_run_next (n + 1) ((step_slot hp).trans hs), steps]
      · rw [runSlots_of_slot hs (by simp [alive]), frame]
    · exact ⟨0, _, Nat.zero_le _, core_run_next 0 ((step_slot hp).trans hs), runSlots_of_stopped hs rfl, rfl⟩

/-- A frame that runs has its whole budget, and any other is over at once (R280, R283). -/
theorem State.startFrame_phase_cases (s : State) :
    (s.startFrame.run = .running ∧ s.startFrame.phase = .slots s.params.ipf) ∨
    (s.startFrame.run ≠ .running ∧ s.startFrame.phase = s.phase) := by
  obtain ⟨run, phase⟩ | ⟨-, run, phase⟩ | ⟨-, run, phase⟩ := s.startFrame_run_cases
  · exact .inr ⟨by simp [run], phase⟩
  · exact .inr ⟨by simp [run], phase⟩
  · exact .inl ⟨run, phase⟩

/-- Settles O47: the first step begins the frame; a frame that does not run is over then, and one that runs goes on
with its slots. -/
theorem stepsRefineFrameStep : Obligations.StepsRefineFrameStep := by
  intro s hp
  have begins := step_between hp
  obtain ⟨running, phase⟩ | ⟨notRunning, phase⟩ := s.startFrame_phase_cases
  · obtain ⟨n, t, bound, steps, slots, hb⟩ := core_run_eq_runSlots phase running
    exact ⟨n + 1, t, Nat.succ_le_succ bound, (core_run_next (n + 1) begins).trans steps,
      (if_pos running).trans slots, hb⟩
  · exact ⟨0, _, Nat.zero_le _, core_run_next 0 begins, if_neg notRunning, phase.trans hp⟩

end Sys2Proof.Machine
end

section
/-! SUPPORT. The four fatal faults (R310, R311): each is taken on its condition, and no step sets FAULT otherwise. -/

namespace Sys2Proof.Machine

/-- A slot that raises a fault after the increment records the address it began at (R18, R311). -/
theorem State.raiseFault_advance (s : State) (c : FaultCode) : s.advance.raiseFault c = s.raiseFaultAt c s.pc := by
  have address : s.advance.pc - 2 = s.pc := by simp [State.advance_eq]
  rw [State.raiseFault_eq, address]
  rfl

/-! ## Each fault on its condition -/

theorem execRet_of_empty {s : State} (empty : s.sp.val = 0) : exec .ret s = .next (s.raiseFault .stackUnderflow) :=
  dif_neg (not_not.2 empty)

theorem execCall_of_full {s : State} (nnn : Addr12) (full : s.sp.val = 16) :
    exec (.call nnn) s = .next (s.raiseFault .stackOverflow) :=
  dif_neg (by omega)

/-- Both key skips, where the policy FAULT rejects the register (R260). -/
theorem exec_keySkips_of_none {s : State} {x : Nibble} (h : keyIndex s.params.keyIndex (s.readV x) = none) :
    exec (.skp x) s = .next (s.raiseFault .keyIndexRange) ∧
    exec (.sknp x) s = .next (s.raiseFault .keyIndexRange) := by
  simp only [exec, execSkp, execSknp, h, and_self]

/-- The last address that can be fetched is 0x0FFE (R121). -/
theorem State.fetch_eq_outOfRange_iff (s : State) : s.fetch = .outOfRange ↔ 0x0FFF ≤ s.pc.toNat := by
  constructor
  · intro h
    by_contra below
    rw [State.fetch, if_pos (by rw [inMemory, Config.memSize]; omega)] at h
    split at h <;> cases h
  · intro beyond
    by_contra h
    have := State.pc_le_of_fetch h
    omega

theorem step_of_fetch_outOfRange {s : State} {left : Nat} (hp : s.phase = .slots (left + 1))
    (hf : s.fetch = .outOfRange) : step s = .next (s.takeSlot left).fetchFault := by
  rw [step_slot hp, slot, State.fetch_takeSlot, hf]

/-- Settles O7: the fault entry replaces the slot's increment and its place in the frame. -/
theorem fatalFaultsAreTaken : Obligations.FatalFaultsAreTaken := by
  intro s
  refine ⟨fun nnn full => ?_, fun empty => ?_, fun left hp beyond => ?_, fun x policy high => ?_⟩
  · exact (execCall_of_full (s := s.advance) nnn full).trans (congrArg _ (s.raiseFault_advance _))
  · exact (execRet_of_empty (s := s.advance) empty).trans (congrArg _ (s.raiseFault_advance _))
  · exact step_of_fetch_outOfRange hp (s.fetch_eq_outOfRange_iff.2 beyond)
  · obtain ⟨skp, sknp⟩ := exec_keySkips_of_none (s := s.advance) (keyIndex_none.2 ⟨policy, high⟩)
    exact ⟨skp.trans (congrArg _ (s.raiseFault_advance _)), sknp.trans (congrArg _ (s.raiseFault_advance _))⟩

/-! ## No other step sets FAULT -/

/-- Why a slot that begins in `s` takes the fault `c` (R310): what it fetches, or that it can fetch nothing. -/
inductive SlotFaults (s : State) : FaultCode → Prop
  | fetch (hf : s.fetch = .outOfRange) : SlotFaults s .fetchOutOfRange
  | instr (i : Instr) (c : FaultCode) (hf : s.fetch = .instr i) (cause : FaultCause i s c) : SlotFaults s c

/-- The increment and the count of slots take no part in a fault's cause. -/
theorem faultCause_of_advance {i : Instr} {s : State} {left : Nat} {c : FaultCode}
    (h : FaultCause i (s.takeSlot left).advance c) : FaultCause i s c := by
  cases c <;> exact h

/-- A step that changes FAULT is a slot that takes one fault, at the address it began at (R311, R312). -/
theorem step_fault_changed {s t : State} (h : step s = .next t) (changed : t.fault ≠ s.fault) :
    ∃ left c, s.phase = .slots (left + 1) ∧ t = (s.takeSlot left).raiseFaultAt c s.pc ∧ SlotFaults s c := by
  cases stepsTo_of_step h with
  | startFrame => exact absurd s.startFrame_fault changed
  | endFrame => exact absurd rfl changed
  | fetchFault left hp hf => exact ⟨left, _, hp, rfl, .fetch hf⟩
  | unmapped => exact absurd rfl changed
  | instr left i _ hp hf hx =>
    obtain same | ⟨c, rfl, cause⟩ := exec_next_cases hx
    · exact absurd same.fault changed
    · exact ⟨left, c, hp, State.raiseFault_advance _ c, .instr i c hf (faultCause_of_advance cause)⟩

/-- Settles O8: FAULT was clear, so the step changed it, and the slot's cause is the one R310 gives its code. -/
theorem faultsArePrecise : Obligations.FaultsArePrecise := by
  intro s t f clear h set
  obtain ⟨left, c, hp, rfl, faults⟩ := step_fault_changed h (by simp [clear, set])
  obtain rfl : ⟨c, s.pc⟩ = f := Option.some.inj set
  refine ⟨⟨left, hp⟩, rfl, rfl, ?_⟩
  cases faults with
  | fetch hf => exact ⟨nofun, nofun, fun _ => s.fetch_eq_outOfRange_iff.1 hf, nofun⟩
  | instr i c hf cause =>
    cases c with
    | stackOverflow =>
      obtain ⟨full, nnn, rfl⟩ := cause
      exact ⟨fun _ => ⟨full, nnn, hf⟩, nofun, nofun, nofun⟩
    | stackUnderflow =>
      obtain ⟨empty, rfl⟩ := cause
      exact ⟨nofun, fun _ => ⟨empty, hf⟩, nofun, nofun⟩
    | fetchOutOfRange => exact cause.elim
    | keyIndexRange =>
      obtain ⟨policy, x, high, rfl | rfl⟩ := cause
      · exact ⟨nofun, nofun, nofun, fun _ => ⟨policy, x, high, .inl hf⟩⟩
      · exact ⟨nofun, nofun, nofun, fun _ => ⟨policy, x, high, .inr hf⟩⟩

end Sys2Proof.Machine
end

section
/-! SUPPORT. Which images boot, and what memory reads after it (R340 to R346). -/

namespace Sys2Proof.Machine

/-- The space above 0x200 is 3584 bytes (R345). -/
theorem romFits_iff (bytes : List Byte) : romFits bytes = true ↔ bytes.length ≤ 3584 := decide_eq_true_iff

section
variable (p : Params)

theorem boot_of_fits {bytes : List Byte} (fits : bytes.length ≤ 3584) :
    boot p (some bytes) = .ok (State.loadBytes bytes Config.progBase (State.bootWith p)) :=
  if_pos ((romFits_iff bytes).2 fits)

theorem boot_of_oversized {bytes : List Byte} (long : 3584 < bytes.length) :
    boot p (some bytes) = .error .romLoadFailure :=
  if_neg (mt (romFits_iff bytes).1 (Nat.not_le_of_lt long))

/-- After the load, memory reads as the font below 0x050, as the image from 0x200 on, and as zero elsewhere (R341,
R342, R345). -/
theorem readByte_loadBytes_bootWith (bytes : List Byte) (a : Nat) :
    (State.loadBytes bytes Config.progBase (State.bootWith p)).readByte a =
      if h : a < 80 then p.font[a] else if 0x200 ≤ a then (bytes[a - 0x200]?).getD 0 else 0 := by
  obtain ⟨-, -, -, zeros, font, -⟩ := resetValues.2 p
  rw [State.loadBytes_readByte, Config.progBase]
  split_ifs with image glyphs glyphs
  · omega
  · rw [zeros a (by omega)]
  · exact font a glyphs
  · exact zeros a (by omega)

end

/-- Settles O58: the load writes the image over the font and the zeros, and touches memory alone. -/
theorem bootLoadsRom : Obligations.BootLoadsRom := fun p rom fits =>
  ⟨_, boot_of_fits p fits, State.loadBytes_shape rom _ _, readByte_loadBytes_bootWith p rom⟩

/-- Settles O59: a missing and a too long image fail, and one that fits boots. -/
theorem missingOrOversizedRomFails : Obligations.MissingOrOversizedRomFails := by
  intro p rom
  match rom with
  | none => simp [boot]
  | some bytes =>
    obtain long | fits := Nat.lt_or_ge 3584 bytes.length
    · simp [boot_of_oversized p long, long]
    · simp [boot_of_fits p fits, fits]

end Sys2Proof.Machine
end

section
/-! SUPPORT. No step stops the machine (log entries 12 and 14). -/

namespace Sys2Proof.Machine

/-- An instruction answers a next state whether it completes or takes a fault (R311). -/
theorem exec_answers_next (i : Instr) (s : State) : ∃ t, exec i s = .next t := by
  obtain ⟨t, completes, -⟩ | ⟨c, faults, -⟩ := exec_cases i s
  · exact ⟨t, completes⟩
  · exact ⟨s.raiseFault c, faults⟩

theorem slot_answers_next (s : State) : ∃ t, slot s = .next t := by
  obtain ⟨-, hs⟩ | ⟨-, hs⟩ | ⟨i, -, hs⟩ := slot_cases s
  · exact ⟨_, hs⟩
  · exact ⟨_, hs⟩
  · rw [hs]
    exact exec_answers_next i s.advance

/-- Settles O48: a frame's beginning, its end and each slot answer a next state. -/
theorem everyStepAnswersNext : Obligations.EveryStepAnswersNext := by
  intro s
  match hp : s.phase with
  | .between => exact ⟨_, step_between hp⟩
  | .slots 0 => exact ⟨_, step_end hp⟩
  | .slots (left + 1) =>
    rw [step_slot hp]
    exact slot_answers_next _

end Sys2Proof.Machine
end
